-- ==== Sys2Proof/Word.lean ====
section
/-! DEFINITION. The words of the block: bytes, 32-bit command words, 64-bit host transfers, and the four legal
register widths. -/

namespace Sys2Proof

/-- One byte of data memory (`20_memory.md` R51). -/
abbrev Byte := BitVec 8

/-- A command word (`30_encoding.md` R70). -/
abbrev CmdWord := BitVec 32

/-- What one host transfer carries (`10_state.md` R20). -/
abbrev HostWord := BitVec 64

/-- The legal values of the elaboration parameter `W` (`00_scope.md` R6). No block has another `W`. -/
inductive Width where
  | w8 | w16 | w32 | w64
  deriving DecidableEq, Repr

/-- `W` as a number of bits. -/
def Width.bits : Width → Nat
  | .w8 => 8
  | .w16 => 16
  | .w32 => 32
  | .w64 => 64

end Sys2Proof
end

