-- ==== Sys2Proof/Syntax.lean ====
section
/-! DEFINITION. The language of the block: its command set (`Instr`, one constructor per row of
`spec/opcode_table.json`), the host's register names, the transactions a host program is made of, and the assembler
lines that expand to them. -/

namespace Sys2Proof

/-- A direction (`30_encoding.md` R72): MSB-first shifts left, LSB-first shifts right. -/
inductive Dir where
  | msbFirst
  | lsbFirst
  deriving DecidableEq, Repr

/-- An engine (`30_encoding.md` R72). -/
inductive Engine where
  | bw
  | tb
  deriving DecidableEq, Repr

/-- The commands (`30_encoding.md` R74). A shift count is the integer IMM8 (R71), checked by `Instr.wellFormed`, and a
table index is an index of a table of exactly 256 entries (R35). -/
inductive Instr where
  | cfgBw (d : Dir)
  | cfgTb (d : Dir)
  | crcBw
  | crcTb
  | rev
  | shiftBw (n : Nat)
  | shiftTb (n : Nat)
  | tblrd (i : Fin 256)
  deriving DecidableEq, Repr

/-- The sixteen register numbers the host sees (`10_state.md` R20), in the order of their numbers. -/
inductive Reg where
  | cmd | val | addr | len | result | status | param | rsv7
  | bwCfg | bwPoly | bwMask | rsv11 | tbCfg | tbPoly | tbMask | rsv15
  deriving DecidableEq, Repr

/-- What a host program does, one entry at a time (`30_encoding.md` R78, R79; `70_reset_and_hazards.md` R193).
`write`, `read` and `memWrite` are the transactions HostWrite, HostRead and HostMemWrite. `wait` is the polling loop of
R79, and `writeBack r` writes to `r` the value the host read last, as `chain` does with VAL. -/
inductive HostAction where
  | write (r : Reg) (v : HostWord)
  | read (r : Reg)
  | memWrite (a : Nat) (b : Byte)
  | wait
  | writeBack (r : Reg)
  deriving DecidableEq, Repr

/-- One line of assembler source after reading, with its numbers as written (`30_encoding.md` R78, R79). The last seven
are the pseudo-instructions. -/
inductive AsmLine where
  | wr (r : Reg) (v : Nat)
  | rd (r : Reg)
  | mw (a : Nat) (bytes : List Nat)
  | cfg (e : Engine) (d : Dir)
  | crc (e : Engine)
  | rev
  | shift (e : Engine) (n : Nat)
  | tblrd (i : Nat)
  | wait
  | cfgWith (e : Engine) (d : Dir) (poly : Nat)
  | crcWith (e : Engine) (seed addr len : Nat)
  | revWith (v : Nat)
  | shiftWith (e : Engine) (v n : Nat)
  | tblrdWait (i : Nat)
  | chain
  deriving DecidableEq, Repr

end Sys2Proof
end

