-- ==== Sys2Proof/WellFormed.lean ====
section
/-! DEFINITION. The checks on terms of the language that their types do not make. -/

namespace Sys2Proof

/-- A command that some word encodes: IMM8 is 8 bits wide, so a shift count is at most 255 (`30_encoding.md` R71). Every
other operand is in range by its type. -/
def Instr.wellFormed : Instr → Bool
  | .cfgBw _ => true
  | .cfgTb _ => true
  | .crcBw => true
  | .crcTb => true
  | .rev => true
  | .shiftBw n => decide (n ≤ 255)
  | .shiftTb n => decide (n ≤ 255)
  | .tblrd _ => true

/-- A value a host write can carry (`10_state.md` R20: whole 64-bit transfers). -/
def fitsHostWord (v : Nat) : Bool := decide (v < 2 ^ 64)

/-- A line the assembler accepts: "An assembler refuses an IMM8 operand outside 0..255" (`30_encoding.md` R78). That a
written value fits the 64-bit transfer and a stored byte its 8 bits is DEDUCED from R20 and R38 (log entry 10). -/
def AsmLine.wellFormed : AsmLine → Bool
  | .wr _ v => fitsHostWord v
  | .rd _ => true
  | .mw _ bytes => bytes.all fun b => decide (b ≤ 255)
  | .cfg _ _ => true
  | .crc _ => true
  | .rev => true
  | .shift _ n => decide (n ≤ 255)
  | .tblrd i => decide (i ≤ 255)
  | .wait => true
  | .cfgWith _ _ poly => fitsHostWord poly
  | .crcWith _ seed addr len => fitsHostWord seed && fitsHostWord addr && fitsHostWord len
  | .revWith v => fitsHostWord v
  | .shiftWith _ v n => fitsHostWord v && decide (n ≤ 255)
  | .tblrdWait i => decide (i ≤ 255)
  | .chain => true

end Sys2Proof
end

