-- ==== Sys2Proof/Decode.lean ====
section
/-! DEFINITION. The decoder of command words, by the rows of `30_encoding.md` R74 as R75 reads them, and the encoder,
written from the field table of R70. -/

namespace Sys2Proof

/-! ## The fields of a command word (R70) -/

def opField (w : CmdWord) : BitVec 4 := w.extractLsb' 0 4
def engField (w : CmdWord) : BitVec 1 := w.extractLsb' 4 1
def dirField (w : CmdWord) : BitVec 1 := w.extractLsb' 5 1
def rsv0Field (w : CmdWord) : BitVec 2 := w.extractLsb' 6 2
def imm8Field (w : CmdWord) : BitVec 8 := w.extractLsb' 8 8
def rsv1Field (w : CmdWord) : BitVec 16 := w.extractLsb' 16 16

/-- R72: DIR = 0 is MSB-first, DIR = 1 is LSB-first. -/
def Dir.ofBit (b : BitVec 1) : Dir := if b = 0#1 then .msbFirst else .lsbFirst

def Dir.bit : Dir → BitVec 1
  | .msbFirst => 0#1
  | .lsbFirst => 1#1

/-- R72: ENG = 0 is the bitwise engine, ENG = 1 the table engine. -/
def Engine.bit : Engine → BitVec 1
  | .bw => 0#1
  | .tb => 1#1

/-! ## The rows of the opcode map (R74) -/

/-- The rows, by mnemonic. -/
inductive Row where
  | cfgBw | cfgTb | crcBw | crcTb | rev | shiftBw | shiftTb | tblrd
  deriving DecidableEq, Repr

/-- The rows in the order of R74. -/
def Row.all : List Row := [.cfgBw, .cfgTb, .crcBw, .crcTb, .rev, .shiftBw, .shiftTb, .tblrd]

/-- The `match` column. -/
def Row.pattern : Row → CmdWord
  | .cfgBw => 0x00000001#32
  | .cfgTb => 0x00000011#32
  | .crcBw => 0x00000002#32
  | .crcTb => 0x00000012#32
  | .rev => 0x00000003#32
  | .shiftBw => 0x00000004#32
  | .shiftTb => 0x00000014#32
  | .tblrd => 0x00000005#32

/-- The `mask` column. -/
def Row.mask : Row → CmdWord
  | .cfgBw => 0xFFFFFFDF#32
  | .cfgTb => 0xFFFFFFDF#32
  | .crcBw => 0xFFFFFFFF#32
  | .crcTb => 0xFFFFFFFF#32
  | .rev => 0xFFFFFFFF#32
  | .shiftBw => 0xFFFF00FF#32
  | .shiftTb => 0xFFFF00FF#32
  | .tblrd => 0xFFFF00FF#32

/-- `(word AND row.mask) = row.match` (R75). -/
def Row.hits (r : Row) (w : CmdWord) : Bool := w &&& r.mask == r.pattern

/-- The row's instruction "with fields DIR = word[5], IMM8 = word[15:8]" (R75). -/
def Row.instr (r : Row) (w : CmdWord) : Instr :=
  match r with
  | .cfgBw => .cfgBw (Dir.ofBit (dirField w))
  | .cfgTb => .cfgTb (Dir.ofBit (dirField w))
  | .crcBw => .crcBw
  | .crcTb => .crcTb
  | .rev => .rev
  | .shiftBw => .shiftBw (imm8Field w).toNat
  | .shiftTb => .shiftTb (imm8Field w).toNat
  | .tblrd => .tblrd ⟨(imm8Field w).toNat, (imm8Field w).isLt⟩

/-! ## Decoding (R75, R76) -/

/-- Why a word is ILLEGAL, by the bullets of R76. All of them are the one outcome ILLEGAL. -/
inductive Illegal where
  | reservedBits
  | noSuchOp
  | engine
  | direction
  | immediate
  deriving DecidableEq, Repr

/-- "Decode(word : 32 bits) -> Instr or ILLEGAL" (R75). -/
inductive Decoded where
  | instr (i : Instr)
  | illegal (why : Illegal)
  deriving DecidableEq, Repr

/-- The first bullet of R76 that a word outside every row meets. -/
def whyIllegal (w : CmdWord) : Illegal :=
  if rsv0Field w ≠ 0#2 ∨ rsv1Field w ≠ 0#16 then .reservedBits
  else if opField w = 0#4 ∨ 6 ≤ (opField w).toNat then .noSuchOp
  else if (opField w = 3#4 ∨ opField w = 5#4) ∧ engField w = 1#1 then .engine
  else if opField w ≠ 1#4 ∧ dirField w = 1#1 then .direction
  else .immediate

/-- Decode is total on every 32-bit word (R75). -/
def decode (w : CmdWord) : Decoded :=
  match Row.all.find? fun r => r.hits w with
  | some r => .instr (r.instr w)
  | none => .illegal (whyIllegal w)

/-- The command word whose bits the opcode table numbers as those of `w`. A command is one 32-bit word (R77). -/
def tableWord (nbits w : Nat) : CmdWord := BitVec.ofNat 32 (w % 2 ^ nbits)

/-- The instruction the decoder reads from a row's bits. -/
def decodeTableWord (nbits w : Nat) : Option Instr :=
  match decode (tableWord nbits w) with
  | .instr i => some i
  | .illegal _ => none

/-! ## Encoding (R70, R74) -/

/-- A word from its fields, the reserved ones 0 (R70). -/
def packWord (op : BitVec 4) (eng dir : BitVec 1) (imm8 : BitVec 8) : CmdWord :=
  0#16 ++ imm8 ++ 0#2 ++ dir ++ eng ++ op

/-- The word of a well-formed command (R74). -/
def encode : Instr → CmdWord
  | .cfgBw d => packWord 0x1#4 0#1 d.bit 0#8
  | .cfgTb d => packWord 0x1#4 1#1 d.bit 0#8
  | .crcBw => packWord 0x2#4 0#1 0#1 0#8
  | .crcTb => packWord 0x2#4 1#1 0#1 0#8
  | .rev => packWord 0x3#4 0#1 0#1 0#8
  | .shiftBw n => packWord 0x4#4 0#1 0#1 (BitVec.ofNat 8 n)
  | .shiftTb n => packWord 0x4#4 1#1 0#1 (BitVec.ofNat 8 n)
  | .tblrd i => packWord 0x5#4 0#1 0#1 (BitVec.ofNat 8 i.val)

end Sys2Proof
end

