-- ==== Sys2Proof/Config.lean ====
section
/-! DEFINITION. What is fixed when a block is built (`00_scope.md` R6, R7), the values the model had to name, and the
free values that nothing constrains. -/

namespace Sys2Proof

/-- The parameters of one block: the register width `W` (R6) and the size of the data memory its read port reaches
(R7). No step changes them. -/
structure Params where
  width : Width
  memBytes : Nat
  deriving DecidableEq, Repr

/-- The register width in bits (R6). -/
abbrev Params.W (p : Params) : Nat := p.width.bits

/-- R7: `0 <= MEM_BYTES <= 2^64`. -/
abbrev Params.legal (p : Params) : Prop := p.memBytes ≤ 2 ^ 64

/-- The block of `State.reset`: `LIBCRCPP-CORE-W16` over the largest data memory R7 allows.
DESIGN CHOICE, unsafe (log entry 1): R6 and R7 leave both open. Every other block is `State.resetOf` of its parameters. -/
def Config.resetParams : Params := { width := .w16, memBytes := 2 ^ 64 }

/-- What a byte of data memory that nothing has written reads as.
DESIGN CHOICE, unsafe (log entry 2): `95_test_vectors.md` section 3 starts its programs from zero memory, no rule gives
the contents of memory. -/
def Config.background : Byte := 0#8

/-- FREE VALUE (log entry 3): which of the values a byte held during a command the `k`-th read of the run returns
(`20_memory.md` R59: a draw "under no law"). It has no body, so nothing can be proved of its value. -/
opaque Config.draw : Nat → Nat

end Sys2Proof
end

