-- ==== Sys2Proof/Machine/State.lean ====
section
/-! DEFINITION. The state of the block, its host and its data memory, as plain data; the reasons a step can stop; the
state after reset. -/

namespace Sys2Proof.Machine

/-- STATUS.ERR (`10_state.md` R29, `60_exceptions.md` R170). Codes 4 to 15 are never produced, so no constructor has
one. -/
inductive ErrCode where
  | none
  | illegal
  | nocfg
  | range
  deriving DecidableEq, Repr

/-- The configuration state `cfg[e]` of one engine (`10_state.md` R30). -/
structure EngineCfg (W : Nat) where
  valid : Bool
  dir : Dir
  poly : BitVec W
  mask : BitVec W
  pack : Nat
  deriving DecidableEq, Repr

/-- An engine that has not been constructed since reset (R30: every field 0). -/
def EngineCfg.unconfigured (W : Nat) : EngineCfg W :=
  { valid := false, dir := .msbFirst, poly := 0, mask := 0, pack := 0 }

/-- The lookup table: exactly 256 entries of W bits (`10_state.md` R35). -/
abbrev Table (W : Nat) := Vector (BitVec W) 256

/-- The pending command latch `pend` (`10_state.md` R36). `held` is the model's own: for a byte the host has written
while the command is in flight, the values it held before (what `20_memory.md` R59 calls `S(a)`, less the present value;
log entry 3). -/
structure Pending (W : Nat) where
  word : CmdWord
  val : BitVec W
  addr : BitVec 64
  len : BitVec 64
  held : List Host.Cell
  deriving DecidableEq, Repr

/-- Which agent moves (`00_scope.md` R10, `70_reset_and_hazards.md` R193): the host does its next transaction, the
executor may complete the command in flight, or reset is asserted. -/
inductive Turn where
  | host
  | executor
  | reset
  deriving DecidableEq, Repr

/-- What the host notes of a register transaction: the value it wrote, or the value a read returned
(`30_encoding.md` R78: "the program notes the value"). -/
inductive Note where
  | wrote (r : Reg) (v : HostWord)
  | saw (r : Reg) (v : HostWord)
  deriving DecidableEq, Repr

/-- What stops the machine with a fault. -/
inductive Fault where
  /-- Raised by the host's memory write, when its address is no address of data memory: HostMemWrite is an action only
  for `a < MEM_BYTES` (`70_reset_and_hazards.md` R193; log entry 11). Safe: the spec gives such a write no effect. No
  command raises it, the range check R52 comes first. -/
  | noSuchAddress (a : Nat)
  deriving DecidableEq, Repr

/-- What stops the machine for want of a meaning. -/
inductive Refusal where
  /-- The instruction has no meaning yet. No arm raises it: every command has its meaning. Safe. -/
  | notModelled (mnemonic : String)
  deriving DecidableEq, Repr

/-- The whole machine. From `val` to `pend` the block itself; `mem` the data memory, which is not part of the block
(R190); `program`, `turns`, `notes` the host and the schedule; `draws` the counter of the free value `Config.draw`. -/
structure State where
  /-- W and MEM_BYTES (R6, R7). -/
  params : Params
  /-- VAL (R25). -/
  val : BitVec params.W
  /-- ADDR (R26). -/
  addr : BitVec 64
  /-- LEN (R26). -/
  len : BitVec 64
  /-- RESULT (R28). -/
  result : BitVec params.W
  /-- STATUS.ERR (R29). -/
  err : ErrCode
  /-- STATUS.OVR (R29). -/
  ovr : Bool
  /-- `cfg[BW]` (R30). -/
  bw : EngineCfg params.W
  /-- `cfg[TB]` (R30). -/
  tb : EngineCfg params.W
  /-- TABLE (R35). -/
  table : Table params.W
  /-- `busy` and `pend` (R36): a command is in flight exactly when the latch holds one. -/
  pend : Option (Pending params.W)
  /-- Data memory (R38), addresses strictly rising, no entry equal to the background. -/
  mem : List Host.Cell
  /-- The host's transactions still to come, in program order (R78). The model's own. -/
  program : List HostAction
  /-- Whose turns come next (R193: any schedule). The model's own (log entry 4). -/
  turns : List Turn
  /-- What the host has noted, newest first. The model's own. -/
  notes : List Note
  /-- How many draws have been used. The model's own (log entry 3). -/
  draws : Nat
  deriving DecidableEq, Repr

/-- The block of parameters `p` right after reset (`70_reset_and_hazards.md` R190), with no program and an empty
schedule (log entry 14). TABLE is unspecified there: its 256 zeros are a DESIGN CHOICE, unsafe (log entry 5). -/
def State.resetOf (p : Params) : State where
  params := p
  val := 0
  addr := 0
  len := 0
  result := 0
  err := .none
  ovr := false
  bw := EngineCfg.unconfigured p.W
  tb := EngineCfg.unconfigured p.W
  table := Vector.replicate 256 0
  pend := none
  mem := []
  program := []
  turns := []
  notes := []
  draws := 0

/-- The machine right after reset (R190), for the block `Config.resetParams` (log entry 1). -/
def State.reset : State := State.resetOf Config.resetParams

end Sys2Proof.Machine
end

