-- ==== Sys2Proof/Machine/Ops.lean ====
section
/-! DEFINITION. The named operations over data memory and over the fields of the state, the end of a command, and the
one way a command fails. The block has no trap mechanism and no trap return (`60_exceptions.md` R173, R174): what other
machines do on an exception is here `State.raiseError`. -/

namespace Sys2Proof.Machine

/-- The three outcomes of this machine. -/
abbrev Result := Host.Outcome State Fault Refusal

/-! ## Data memory (`20_memory.md`, `10_state.md` R38) -/

/-- The bytes of data memory that differ from the background, addresses rising. -/
abbrev Memory := List Host.Cell

/-- The canonical form: addresses strictly rising, no entry equal to what an unlisted address reads as. -/
def Memory.wf : Memory → Bool
  | [] => true
  | c :: m => c.2 != Config.background && m.all (fun d => decide (c.1 < d.1)) && Memory.wf m

/-- The byte stored at `a`. -/
def Memory.read (m : Memory) (a : Nat) : Byte :=
  match m with
  | [] => Config.background
  | c :: m => if c.1 = a then c.2 else Memory.read m a

/-- The memory with byte `a` set to `b`, in canonical form. -/
def Memory.write (m : Memory) (a : Nat) (b : Byte) : Memory :=
  match m with
  | [] => if b = Config.background then [] else [(a, b)]
  | c :: m =>
    if a < c.1 then (if b = Config.background then c :: m else (a, b) :: c :: m)
    else if c.1 = a then (if b = Config.background then m else (a, b) :: m)
    else c :: Memory.write m a b

/-! ## One field at a time -/

def State.setVal (s : State) (v : BitVec s.params.W) : State := { s with val := v }
def State.setAddr (s : State) (v : BitVec 64) : State := { s with addr := v }
def State.setLen (s : State) (v : BitVec 64) : State := { s with len := v }
def State.setResult (s : State) (v : BitVec s.params.W) : State := { s with result := v }
def State.setErr (s : State) (e : ErrCode) : State := { s with err := e }
def State.setOvr (s : State) (b : Bool) : State := { s with ovr := b }
def State.setBw (s : State) (c : EngineCfg s.params.W) : State := { s with bw := c }
def State.setTb (s : State) (c : EngineCfg s.params.W) : State := { s with tb := c }
def State.setTable (s : State) (t : Table s.params.W) : State := { s with table := t }
def State.setPend (s : State) (p : Option (Pending s.params.W)) : State := { s with pend := p }
def State.setMem (s : State) (m : Memory) : State := { s with mem := m }
def State.setProgram (s : State) (p : List HostAction) : State := { s with program := p }
def State.setTurns (s : State) (t : List Turn) : State := { s with turns := t }
def State.addNote (s : State) (n : Note) : State := { s with notes := n :: s.notes }
def State.addDraws (s : State) (k : Nat) : State := { s with draws := s.draws + k }

/-! ## The protocol of a command (`70_reset_and_hazards.md` R191, R192) -/

/-- STATUS.BUSY (R29): 1 from acceptance to completion, which is while `pend` is valid (R36; DEDUCED, log entry 16). -/
def State.busy (s : State) : Bool := s.pend.isSome

/-- Acceptance (R191): the command word and copies of the operands go to `pend`, `busy <- 1`, nothing else changes. -/
def State.accept (s : State) (w : CmdWord) : State :=
  s.setPend (some { word := w, val := s.val, addr := s.addr, len := s.len, held := [] })

/-- Completion writes exactly one ERR code and sets `busy <- 0` (R170, R192). -/
def State.endCommand (s : State) (e : ErrCode) : State := (s.setErr e).setPend none

/-- `raise Error(code)` (`60_exceptions.md` R171): `STATUS.ERR <- code`, `STATUS.BUSY <- 0`, no other change. The
machine goes on: an error is no trap (R173). -/
def State.raiseError (s : State) (code : ErrCode) : Result := .next (s.endCommand code)

/-- Normal completion, `STATUS.ERR <- NONE`. -/
def State.complete (s : State) : Result := .next (s.endCommand .none)

/-- Normal completion of a command that writes RESULT (`10_state.md` R28). -/
def State.completeWith (s : State) (v : BitVec s.params.W) : Result := (s.setResult v).complete

/-! ## Reset (`70_reset_and_hazards.md` R190) -/

/-- Reset asserted and released: the block takes its reset values, a command in flight is abandoned, data memory stays.
The table's contents after it are unspecified (log entry 5). One turn stands for one assertion, however long (DESIGN
CHOICE, log entry 12). -/
def State.resetBlock (s : State) : State :=
  { State.resetOf s.params with
    mem := s.mem, program := s.program, turns := s.turns, notes := s.notes, draws := s.draws }

end Sys2Proof.Machine
end

