-- ==== Sys2Proof/Machine/Operands.lean ====
section
/-! DEFINITION. Where a command's operands come from: the pending latch, and for `crc.*` the bytes the read port
reads. -/

namespace Sys2Proof.Machine

/-- A command's meaning on its latched operands. With no command in flight there is nothing to complete
(`70_reset_and_hazards.md` R193: Complete is "enabled iff busy = 1") and the state stays (log entry 6). -/
def State.withPending (s : State) (f : Pending s.params.W → Result) : Result :=
  match s.pend with
  | some p => f p
  | none => .next s

/-! ## The read port (`20_memory.md`) -/

/-- R52: a range is legal when it is empty or ends inside data memory, in unbounded arithmetic. -/
def rangeLegal (memBytes : Nat) (addr len : BitVec 64) : Bool :=
  decide (len = 0#64) || decide (addr.toNat + len.toNat ≤ memBytes)

/-- `S(a)` of R59: the values byte `a` held from acceptance until now, the present one first if it is new. -/
def State.heldValues (s : State) (p : Pending s.params.W) (a : Nat) : List Byte :=
  ((p.held.filter fun c => c.1 == a).map Prod.snd).insert (Memory.read s.mem a)

/-- `MemRead(a, 1)` as the `k`-th read of a command (R51, R59): the one value the byte held, or a draw among the values
it held, which `Config.draw` leaves free (log entry 3). -/
def State.memRead (s : State) (p : Pending s.params.W) (k a : Nat) : Byte :=
  match s.heldValues p a with
  | [v] => v
  | vs => vs.getD (Config.draw (s.draws + k) % vs.length) (Memory.read s.mem a)

/-- The bytes of a `crc.*` command: reads at `A, A+1, ..., A+L-1`, in that order (R51). -/
def State.dataBytes (s : State) (p : Pending s.params.W) : List Byte :=
  (List.range p.len.toNat).map fun k => s.memRead p k (p.addr.toNat + k)

/-- What `20_memory.md` R59 has to remember when the host writes byte `a` while a command is in flight: the value the
byte held until now. -/
def State.recordHeld (s : State) (a : Nat) : State :=
  match s.pend with
  | some p => s.setPend (some { p with held := p.held.insert (a, Memory.read s.mem a) })
  | none => s

end Sys2Proof.Machine
end

