-- ==== Sys2Proof/Machine/Reversal.lean ====
section
/-! DEFINITION. The bit-reversal unit REV (`40_bit_reversal.md`) and `rev`. -/

namespace Sys2Proof.Machine

/-- `BitReverse_W(x)` (R100): for `i` in `0 .. W-1`, `y[W-1-i] <- x[i]`, from `y = 0`. -/
def bitReverse {W : Nat} (x : BitVec W) : BitVec W :=
  (List.range W).foldl (fun y i => if x.getLsbD i then y ||| BitVec.twoPow W (W - 1 - i) else y) 0#W

/-- `rev` (R101). -/
def execRev (s : State) : Result := s.withPending fun p => s.completeWith (bitReverse p.val)

end Sys2Proof.Machine
end

