-- ==== Sys2Proof/Machine/Shifter.lean ====
section
/-! DEFINITION. The directional shifter DSH (`41_directional_shifter.md`), `shift.bw` and `shift.tb`. -/

namespace Sys2Proof.Machine

/-- `shl_W(x, n)` (R110): `(x * 2^n) mod 2^W`, 0 for `n >= W`. -/
def shl {W : Nat} (x : BitVec W) (n : Nat) : BitVec W := if n < W then BitVec.ofNat W (x.toNat * 2 ^ n) else 0#W

/-- `shr_W(x, n)` (R110): `floor(x / 2^n)`, 0 for `n >= W`. -/
def shr {W : Nat} (x : BitVec W) (n : Nat) : BitVec W := if n < W then BitVec.ofNat W (x.toNat / 2 ^ n) else 0#W

/-- `DirShift(d, x, n)` (R111): left for MSB-first, right for LSB-first. -/
def dirShift {W : Nat} (d : Dir) (x : BitVec W) (n : Nat) : BitVec W :=
  match d with
  | .msbFirst => shl x n
  | .lsbFirst => shr x n

/-- `DirBack(d, x, n)` (R112): the shift in the opposite direction. -/
def dirBack {W : Nat} (d : Dir) (x : BitVec W) (n : Nat) : BitVec W :=
  match d with
  | .msbFirst => shr x n
  | .lsbFirst => shl x n

/-- A shift command on the engine whose configuration is `c` (R113, R114): NOCFG when it was never constructed, else
VAL shifted in the engine's direction. -/
def State.runShift (s : State) (c : EngineCfg s.params.W) (n : Nat) : Result :=
  s.withPending fun p =>
    if c.valid then s.completeWith (dirShift c.dir p.val n) else s.raiseError .nocfg

/-- `shift.bw n` (R113). -/
def execShiftBw (n : Nat) (s : State) : Result := s.runShift s.bw n

/-- `shift.tb n` (R114). -/
def execShiftTb (n : Nat) (s : State) : Result := s.runShift s.tb n

end Sys2Proof.Machine
end

