-- ==== Sys2Proof/Machine/Bitwise.lean ====
section
/-! DEFINITION. The bitwise CRC engine BWE (`42_bitwise_engine.md`), the configuration both engines derive, and
`cfg.bw` and `crc.bw`. -/

namespace Sys2Proof.Machine

/-- `Derive(d, P)` (R120), as the configuration of a constructed engine. The MSB-first mask is the value `2^(W-1)`
(R121). -/
def derive {W : Nat} (d : Dir) (P : BitVec W) : EngineCfg W :=
  match d with
  | .msbFirst => { valid := true, dir := d, poly := P, mask := BitVec.ofNat W (2 ^ (W - 1)), pack := W - 8 }
  | .lsbFirst => { valid := true, dir := d, poly := bitReverse P, mask := 1#W, pack := 0 }

/-- `BitStep(c, r)` (R122): the bit under the mask is tested, then the shift, then the XOR. -/
def bitStep {W : Nat} (c : EngineCfg W) (r : BitVec W) : BitVec W :=
  if r &&& c.mask ≠ 0#W then dirShift c.dir r 1 ^^^ c.poly else dirShift c.dir r 1

/-- `n` bit steps in sequence. -/
def bitSteps {W : Nat} (c : EngineCfg W) : Nat → BitVec W → BitVec W
  | 0, r => r
  | n + 1, r => bitSteps c n (bitStep c r)

/-- `Inner8(c, r)` (R123): eight bit steps. -/
def inner8 {W : Nat} (c : EngineCfg W) (r : BitVec W) : BitVec W := bitSteps c 8 r

/-- `BwByte(c, r, b)` (R125): combine the byte, shifted left by the pack offset, then eight bit steps. -/
def bwByte {W : Nat} (c : EngineCfg W) (r : BitVec W) (b : Byte) : BitVec W :=
  inner8 c (r ^^^ shl (b.setWidth W) c.pack)

/-- `BwCompute(c, s, bytes)` (R127): the left fold of `bwByte`. -/
def bwCompute {W : Nat} (c : EngineCfg W) (seed : BitVec W) (bytes : List Byte) : BitVec W :=
  bytes.foldl (bwByte c) seed

/-- The body `crc.bw` and `crc.tb` share (R126, `43_table_engine.md` R144): NOCFG first, then RANGE, then the byte loop
from the seed, whose result goes to RESULT. Each read uses one draw (log entry 3), and the working CRC register of R36
lives inside this one step (log entry 9). -/
def State.runCrc (s : State) (c : EngineCfg s.params.W)
    (compute : BitVec s.params.W → List Byte → BitVec s.params.W) : Result :=
  s.withPending fun p =>
    if !c.valid then s.raiseError .nocfg
    else if !rangeLegal s.params.memBytes p.addr p.len then s.raiseError .range
    else (s.addDraws p.len.toNat).completeWith (compute p.val (s.dataBytes p))

/-- `cfg.bw d` (R124): a new instance of the bitwise engine replaces the old one whole. -/
def execCfgBw (d : Dir) (s : State) : Result :=
  s.withPending fun p => (s.setBw (derive d p.val)).complete

/-- `crc.bw` (R126). -/
def execCrcBw (s : State) : Result := s.runCrc s.bw (bwCompute s.bw)

end Sys2Proof.Machine
end

