-- ==== Sys2Proof/Machine/TableEngine.lean ====
section
/-! DEFINITION. The table-lookup CRC engine TBE (`43_table_engine.md`), and `cfg.tb`, `crc.tb` and `tblrd`. -/

namespace Sys2Proof.Machine

/-- `BuildTable(c)` (R140): entry `i` is `BwByte(c, 0, i)`. -/
def buildTable {W : Nat} (c : EngineCfg W) : Table W :=
  ⟨⟨(List.range 256).map fun i => bwByte c 0#W (BitVec.ofNat 8 i)⟩, by simp⟩

/-- The table index of R143: `(DirBack(c.dir, r, c.pack) XOR zext_W(b)) AND 0xFF`, taken from `r` before the shift. -/
def tbIndex {W : Nat} (c : EngineCfg W) (r : BitVec W) (b : Byte) : Fin 256 :=
  let x : BitVec 8 := (dirBack c.dir r c.pack ^^^ b.setWidth W).setWidth 8
  ⟨x.toNat, x.isLt⟩

/-- `TbByte(c, T, r, b)` (R143). -/
def tbByte {W : Nat} (c : EngineCfg W) (T : Table W) (r : BitVec W) (b : Byte) : BitVec W :=
  dirShift c.dir r 8 ^^^ T[tbIndex c r b]

/-- `TbCompute(c, T, s, bytes)` (R147): the left fold of `tbByte`. -/
def tbCompute {W : Nat} (c : EngineCfg W) (T : Table W) (seed : BitVec W) (bytes : List Byte) : BitVec W :=
  bytes.foldl (tbByte c T) seed

/-- `cfg.tb d` (R142): a new instance of the table engine, with its whole table. -/
def execCfgTb (d : Dir) (s : State) : Result :=
  s.withPending fun p => ((s.setTb (derive d p.val)).setTable (buildTable (derive d p.val))).complete

/-- `crc.tb` (R144). -/
def execCrcTb (s : State) : Result := s.runCrc s.tb (tbCompute s.tb s.table)

/-- `tblrd i` (R145). -/
def execTblrd (i : Fin 256) (s : State) : Result :=
  s.withPending fun _ => if s.tb.valid then s.completeWith s.table[i] else s.raiseError .nocfg

end Sys2Proof.Machine
end

