-- ==== Sys2Proof/Machine/Dispatch.lean ====
section
/-! DEFINITION. The dispatch: one arm per command. -/

namespace Sys2Proof.Machine

/-- The effect of the command in flight, decoded as `i`, when it completes (`70_reset_and_hazards.md` R192). -/
def exec (i : Instr) (s : State) : Host.Outcome State Fault Refusal :=
  match i with
  | .cfgBw d => Sys2Proof.Machine.execCfgBw d s
  | .cfgTb d => Sys2Proof.Machine.execCfgTb d s
  | .crcBw => Sys2Proof.Machine.execCrcBw s
  | .crcTb => Sys2Proof.Machine.execCrcTb s
  | .rev => Sys2Proof.Machine.execRev s
  | .shiftBw n => Sys2Proof.Machine.execShiftBw n s
  | .shiftTb n => Sys2Proof.Machine.execShiftTb n s
  | .tblrd k => Sys2Proof.Machine.execTblrd k s

end Sys2Proof.Machine
end

