-- ==== Sys2Proof/Machine/Flags.lean ====
section
/-! DEFINITION. The register views that pack fields: STATUS, BW_CFG and TB_CFG, PARAM. These are the block's only
flags (`10_state.md` R29). -/

namespace Sys2Proof.Machine

/-- The ERR codes of `60_exceptions.md` R170. -/
def ErrCode.bits : ErrCode → BitVec 4
  | .none => 0#4
  | .illegal => 1#4
  | .nocfg => 2#4
  | .range => 3#4

/-- STATUS (`10_state.md` R29): BUSY bit 0, ERR bits 7:4, OVR bit 8, the other bits 0. -/
def State.statusWord (s : State) : HostWord :=
  0#55 ++ BitVec.ofBool s.ovr ++ s.err.bits ++ 0#3 ++ BitVec.ofBool s.busy

/-- DIR as a bit (`10_state.md` R30). -/
def dirBit : Dir → BitVec 1
  | .msbFirst => 0#1
  | .lsbFirst => 1#1

/-- BW_CFG and TB_CFG (`10_state.md` R31): VALID bit 0, DIR bit 1, PACK bits 15:8, the other bits 0. -/
def EngineCfg.cfgWord {W : Nat} (c : EngineCfg W) : HostWord :=
  0#48 ++ BitVec.ofNat 8 c.pack ++ 0#6 ++ dirBit c.dir ++ BitVec.ofBool c.valid

/-- PARAM (`10_state.md` R33): `zext_64(W)`. -/
def State.paramWord (s : State) : HostWord := BitVec.ofNat 64 s.params.W

end Sys2Proof.Machine
end

