-- ==== Sys2Proof/Machine/HostPort.lean ====
section
/-! DEFINITION. The host's side: register numbers, host writes and reads of registers (`10_state.md` R20 to R24), host
writes of data memory, and the host's turn. -/

namespace Sys2Proof.Machine

/-- The register number of R20. -/
def regNumber : Reg → Fin 16
  | .cmd => 0
  | .val => 1
  | .addr => 2
  | .len => 3
  | .result => 4
  | .status => 5
  | .param => 6
  | .rsv7 => 7
  | .bwCfg => 8
  | .bwPoly => 9
  | .bwMask => 10
  | .rsv11 => 11
  | .tbCfg => 12
  | .tbPoly => 13
  | .tbMask => 14
  | .rsv15 => 15

/-- The registers in the order of their numbers (R20). -/
def regsInOrder : List Reg :=
  [.cmd, .val, .addr, .len, .result, .status, .param, .rsv7,
   .bwCfg, .bwPoly, .bwMask, .rsv11, .tbCfg, .tbPoly, .tbMask, .rsv15]

/-- The register of a number (R20). -/
def regOfNumber (n : Fin 16) : Reg := regsInOrder[n]

/-- A write to CMD (R23, `70_reset_and_hazards.md` R191, R193): bits 31:0 are the command word. It is accepted when no
command is in flight, and dropped with OVR set when one is. -/
def State.writeCmd (s : State) (v : HostWord) : State :=
  match s.pend with
  | none => s.accept (v.setWidth 32)
  | some _ => s.setOvr true

/-- A host write of `v` to register `r` (R23). -/
def State.regWrite (s : State) (r : Reg) (v : HostWord) : State :=
  match r with
  | .cmd => s.writeCmd v
  | .val => s.setVal (v.setWidth s.params.W)
  | .addr => s.setAddr v
  | .len => s.setLen v
  | .status => if v.getLsbD 8 then s.setOvr false else s
  | .result | .param | .bwCfg | .bwPoly | .bwMask | .tbCfg | .tbPoly | .tbMask => s
  | .rsv7 | .rsv11 | .rsv15 => s

/-- The value a host read of register `r` returns (R24, R20): zero-extended to 64 bits. -/
def State.regRead (s : State) (r : Reg) : HostWord :=
  match r with
  | .cmd => 0#64
  | .val => s.val.setWidth 64
  | .addr => s.addr
  | .len => s.len
  | .result => s.result.setWidth 64
  | .status => s.statusWord
  | .param => s.paramWord
  | .bwCfg => s.bw.cfgWord
  | .bwPoly => s.bw.poly.setWidth 64
  | .bwMask => s.bw.mask.setWidth 64
  | .tbCfg => s.tb.cfgWord
  | .tbPoly => s.tb.poly.setWidth 64
  | .tbMask => s.tb.mask.setWidth 64
  | .rsv7 | .rsv11 | .rsv15 => 0#64

/-- The host writes register `r` and notes it. -/
def State.hostWrite (s : State) (r : Reg) (v : HostWord) : State := (s.regWrite r v).addNote (.wrote r v)

/-- The host reads register `r` and notes the value (`30_encoding.md` R78). Nothing else changes (R24). -/
def State.hostRead (s : State) (r : Reg) : State := s.addNote (.saw r (s.regRead r))

/-- The value of the host's latest read, 0 when it has read nothing (log entry 7). -/
def lastSeen : List Note → HostWord
  | [] => 0#64
  | .saw _ v :: _ => v
  | .wrote _ _ :: notes => lastSeen notes

/-- HostMemWrite (`70_reset_and_hazards.md` R193): an action only for an address of data memory (log entry 11). The byte
is there at once (R198 has no delayed write; log entry 13). A write during a command is allowed, and what the byte held
is remembered for R59. -/
def State.hostMemWrite (s : State) (a : Nat) (b : Byte) : Result :=
  if a < s.params.memBytes then .next ((s.recordHeld a).setMem (Memory.write s.mem a b))
  else .fault (.noSuchAddress a)

/-- The host does one entry of its program, `s` being the state with that entry taken off. `wait` reads STATUS, and
stays the host's next entry while BUSY reads 1 (`30_encoding.md` R79; log entry 15). -/
def State.hostDo (s : State) (x : HostAction) : Result :=
  match x with
  | .write r v => .next (s.hostWrite r v)
  | .read r => .next (s.hostRead r)
  | .memWrite a b => s.hostMemWrite a b
  | .wait => if s.busy then .next ((s.hostRead .status).setProgram (.wait :: s.program)) else .next (s.hostRead .status)
  | .writeBack r => .next (s.hostWrite r (lastSeen s.notes))

/-- The host's turn: its next transaction, or nothing when its program has ended. -/
def State.hostTurn (s : State) : Result :=
  match s.program with
  | [] => .next s
  | x :: rest => (s.setProgram rest).hostDo x

end Sys2Proof.Machine
end

