-- ==== Sys2Proof/Machine/Executor.lean ====
section
/-! DEFINITION. The executor's turn (`70_reset_and_hazards.md` R192), and one turn of any agent (R193). -/

namespace Sys2Proof.Machine

/-- Complete (R192, `30_encoding.md` R75): `pend.word` is decoded now, an ILLEGAL word completes with ERR = ILLEGAL,
any other applies its instruction's rule. Enabled iff a command is in flight. A turn the executor cannot use changes
nothing (log entry 6). -/
def State.executorTurn (s : State) : Result :=
  match s.pend with
  | none => .next s
  | some p =>
    match decode p.word with
    | .instr i => exec i s
    | .illegal _ => s.raiseError .illegal

/-- One turn: "Any of the host actions and Complete may be scheduled at any step" (R193). -/
def State.takeTurn (s : State) (t : Turn) : Result :=
  match t with
  | .host => s.hostTurn
  | .executor => s.executorTurn
  | .reset => .next s.resetBlock

/-- Whose turn it is when the schedule names nobody: the executor's while a command is in flight, else the host's. With
it every command in flight completes (`00_scope.md` R8; log entry 4). -/
def State.defaultTurn (s : State) : Turn := if s.busy then .executor else .host

end Sys2Proof.Machine
end

