-- ==== Sys2Proof/Machine/Step.lean ====
section
/-! DEFINITION. One step of the machine: the next turn of the schedule. The block fetches nothing
(`10_state.md` R22): its instructions are the words the host writes to CMD. -/

namespace Sys2Proof.Machine

/-- One step: the agent whose turn comes next moves (`70_reset_and_hazards.md` R193). -/
def step (s : State) : Host.Outcome State Fault Refusal :=
  match s.turns with
  | t :: rest => (s.setTurns rest).takeTurn t
  | [] => s.takeTurn s.defaultTurn

/-- The state in which the command word numbered `w` by the opcode table has been accepted with the operands that stand
in VAL, ADDR and LEN, and the executor moves next: the next step runs exactly that command (log entry 8). -/
def State.withFetchWord (s : State) (nbits w : Nat) : State :=
  (s.accept (tableWord nbits w)).setTurns (.executor :: s.turns)

end Sys2Proof.Machine
end

