-- ==== Sys2Proof/Machine/Asm.lean ====
section
/-! DEFINITION. The assembler of `30_encoding.md` R78 and R79: a line's text, the line it reads as, and the host
transactions the line stands for. -/

namespace Sys2Proof.Machine

/-! ## What a line stands for -/

/-- A command's transaction: `wr CMD, word` (R78). -/
def issue (i : Instr) : HostAction := .write .cmd ((encode i).setWidth 64)

/-- `cfg.bw d` or `cfg.tb d`. -/
def cfgOf (e : Engine) (d : Dir) : Instr :=
  match e with
  | .bw => .cfgBw d
  | .tb => .cfgTb d

/-- `crc.bw` or `crc.tb`. -/
def crcOf (e : Engine) : Instr :=
  match e with
  | .bw => .crcBw
  | .tb => .crcTb

/-- `shift.bw n` or `shift.tb n`. -/
def shiftOf (e : Engine) (n : Nat) : Instr :=
  match e with
  | .bw => .shiftBw n
  | .tb => .shiftTb n

/-- `tblrd i`, for an index the line's check has found in range. -/
def tblrdOf (i : Nat) : Instr := .tblrd ⟨i % 256, Nat.mod_lt i (by decide)⟩

/-- `wr REG, v`. -/
def wrOf (r : Reg) (v : Nat) : HostAction := .write r (BitVec.ofNat 64 v)

/-- `mw addr, b0, b1, ...`: host writes of bytes from `addr` upward. -/
def mwFrom (a : Nat) : List Nat → List HostAction
  | [] => []
  | b :: bs => .memWrite a (BitVec.ofNat 8 b) :: mwFrom (a + 1) bs

/-- The transactions of a line, in order (R78, and R79 for the pseudo-instructions). -/
def lineActions : AsmLine → List HostAction
  | .wr r v => [wrOf r v]
  | .rd r => [.read r]
  | .mw a bytes => mwFrom a bytes
  | .cfg e d => [issue (cfgOf e d)]
  | .crc e => [issue (crcOf e)]
  | .rev => [issue .rev]
  | .shift e n => [issue (shiftOf e n)]
  | .tblrd i => [issue (tblrdOf i)]
  | .wait => [.wait]
  | .cfgWith e d poly => [wrOf .val poly, issue (cfgOf e d), .wait]
  | .crcWith e seed addr len => [wrOf .val seed, wrOf .addr addr, wrOf .len len, issue (crcOf e), .wait]
  | .revWith v => [wrOf .val v, issue .rev, .wait]
  | .shiftWith e v n => [wrOf .val v, issue (shiftOf e n), .wait]
  | .tblrdWait i => [issue (tblrdOf i), .wait]
  | .chain => [.read .result, .writeBack .val]

/-- The transactions of a line the assembler accepts. -/
def assembleLine (l : AsmLine) : Option (List HostAction) := if l.wellFormed then some (lineActions l) else none

/-! ## Reading a line's text (R78) -/

/-- What a line is made of. -/
inductive Token where
  | word (cs : List Char)
  | text (cs : List Char)
  | comma
  deriving DecidableEq, Repr

/-- A finished word before the tokens that follow it. -/
def flushWord (acc : List Char) (ts : List Token) : List Token :=
  if acc.isEmpty then ts else .word acc.reverse :: ts

/-- The tokens of a line: words, quoted text and commas. `;` outside quotes starts a comment. `acc` holds the word or
text begun, last character first. -/
def tokens : List Char → (inText : Bool) → (acc : List Char) → Option (List Token)
  | [], false, acc => some (flushWord acc [])
  | [], true, _ => none
  | c :: cs, true, acc =>
    if c = '"' then (tokens cs false []).map (Token.text acc.reverse :: ·) else tokens cs true (c :: acc)
  | c :: cs, false, acc =>
    if c = ';' then some (flushWord acc [])
    else if c = '"' then (if acc.isEmpty then tokens cs true [] else none)
    else if c = ',' then (tokens cs false []).map fun ts => flushWord acc (.comma :: ts)
    else if c = ' ' ∨ c = '\t' then (tokens cs false []).map (flushWord acc)
    else tokens cs false (c :: acc)

/-- The value of a hexadecimal digit. -/
def hexDigit (c : Char) : Option Nat :=
  if '0' ≤ c ∧ c ≤ '9' then some (c.toNat - 48)
  else if 'A' ≤ c ∧ c ≤ 'F' then some (c.toNat - 55)
  else if 'a' ≤ c ∧ c ≤ 'f' then some (c.toNat - 87)
  else none

/-- The number of a run of digits in base `base`, after the digits of value `n`. -/
def digits (base : Nat) : List Char → (n : Nat) → Option Nat
  | [], n => some n
  | c :: cs, n =>
    match hexDigit c with
    | some d => if d < base then digits base cs (n * base + d) else none
    | none => none

/-- "Numbers are decimal or `0x` hexadecimal" (R78). -/
def number (cs : List Char) : Option Nat :=
  match cs with
  | [] => none
  | ['0', 'x'] => none
  | '0' :: 'x' :: ds => digits 16 ds 0
  | ds => digits 10 ds 0

/-- "Register operands are the names of `10_state.md` rule R20" (R78). R20 names registers 7, 11 and 15 all `reserved`, and
no rule says how text tells them apart: such an operand is refused (DESIGN CHOICE, log entry 17). -/
def regName (cs : List Char) : Option Reg :=
  if cs = "CMD".toList then some .cmd
  else if cs = "VAL".toList then some .val
  else if cs = "ADDR".toList then some .addr
  else if cs = "LEN".toList then some .len
  else if cs = "RESULT".toList then some .result
  else if cs = "STATUS".toList then some .status
  else if cs = "PARAM".toList then some .param
  else if cs = "BW_CFG".toList then some .bwCfg
  else if cs = "BW_POLY".toList then some .bwPoly
  else if cs = "BW_MASK".toList then some .bwMask
  else if cs = "TB_CFG".toList then some .tbCfg
  else if cs = "TB_POLY".toList then some .tbPoly
  else if cs = "TB_MASK".toList then some .tbMask
  else none

/-- `msb` or `lsb`: an assembler refuses any other direction (R78). -/
def dirName (cs : List Char) : Option Dir :=
  if cs = "msb".toList then some .msbFirst else if cs = "lsb".toList then some .lsbFirst else none

/-- The operands of a line, one per comma-separated place. -/
def operands : List Token → Option (List Token)
  | [] => some []
  | [.comma] => none
  | [t] => some [t]
  | t :: .comma :: ts => if t = .comma ∨ ts = [] then none else (operands ts).map (t :: ·)
  | _ :: _ :: _ => none

/-- The operands, when all of them are numbers. -/
def numbers : List Token → Option (List Nat)
  | [] => some []
  | .word cs :: ts =>
    match number cs, numbers ts with
    | some n, some ns => some (n :: ns)
    | _, _ => none
  | _ :: _ => none

/-- `wr REG, v`. -/
def readWr : List Token → Option AsmLine
  | [.word r, .word v] =>
    match regName r, number v with
    | some r, some v => some (.wr r v)
    | _, _ => none
  | _ => none

/-- `rd REG`. -/
def readRd : List Token → Option AsmLine
  | [.word r] => (regName r).map AsmLine.rd
  | _ => none

/-- `mw addr, "text"` or `mw addr, b0, b1, ...`: ASCII for text (R78). -/
def readMw : List Token → Option AsmLine
  | [.word a, .text cs] => if cs.all (fun c => decide (c.toNat < 128)) then (number a).map fun a => .mw a (cs.map Char.toNat) else none
  | .word a :: t :: ts =>
    match number a, numbers (t :: ts) with
    | some a, some bytes => some (.mw a bytes)
    | _, _ => none
  | _ => none

/-- `cfg.e d`, or `cfg.e d, poly` (R79). -/
def readCfg (e : Engine) : List Token → Option AsmLine
  | [.word d] => (dirName d).map (.cfg e)
  | [.word d, .word p] =>
    match dirName d, number p with
    | some d, some p => some (.cfgWith e d p)
    | _, _ => none
  | _ => none

/-- `crc.e`, or `crc.e seed, addr, len`. "The seed operand may be omitted, and then means 0" (R79): two operands are
`addr, len` (log entry 10). -/
def readCrc (e : Engine) (ts : List Token) : Option AsmLine :=
  match numbers ts with
  | some [] => some (.crc e)
  | some [a, l] => some (.crcWith e 0 a l)
  | some [s, a, l] => some (.crcWith e s a l)
  | _ => none

/-- `rev`, or `rev v`. -/
def readRev (ts : List Token) : Option AsmLine :=
  match numbers ts with
  | some [] => some .rev
  | some [v] => some (.revWith v)
  | _ => none

/-- `shift.e n`, or `shift.e v, n`. -/
def readShift (e : Engine) (ts : List Token) : Option AsmLine :=
  match numbers ts with
  | some [n] => some (.shift e n)
  | some [v, n] => some (.shiftWith e v n)
  | _ => none

/-- `tblrd i` and `tblrd.w i`. -/
def readIndex (mk : Nat → AsmLine) (ts : List Token) : Option AsmLine :=
  match numbers ts with
  | some [i] => some (mk i)
  | _ => none

/-- A line without operands. -/
def readBare (l : AsmLine) (ts : List Token) : Option AsmLine := if ts = [] then some l else none

/-- The line of a mnemonic and its operands. -/
def readLine (m : List Char) (ts : List Token) : Option AsmLine :=
  if m = "wr".toList then readWr ts
  else if m = "rd".toList then readRd ts
  else if m = "mw".toList then readMw ts
  else if m = "cfg.bw".toList then readCfg .bw ts
  else if m = "cfg.tb".toList then readCfg .tb ts
  else if m = "crc.bw".toList then readCrc .bw ts
  else if m = "crc.tb".toList then readCrc .tb ts
  else if m = "rev".toList then readRev ts
  else if m = "shift.bw".toList then readShift .bw ts
  else if m = "shift.tb".toList then readShift .tb ts
  else if m = "tblrd".toList then readIndex .tblrd ts
  else if m = "tblrd.w".toList then readIndex .tblrdWait ts
  else if m = "wait".toList then readBare .wait ts
  else if m = "chain".toList then readBare .chain ts
  else none

/-- The transactions of one line of text, none where the assembler refuses it. A blank or comment line has none. -/
def assembleText (cs : List Char) : Option (List HostAction) :=
  match tokens cs false [] with
  | some [] => some []
  | some (.word m :: ts) =>
    match operands ts with
    | some ts =>
      match readLine m ts with
      | some l => assembleLine l
      | none => none
    | none => none
  | _ => none

/-- "A host program is a sequence of host transactions, one per line" (R78). -/
def assembleProgram : List (List Char) → Option (List HostAction)
  | [] => some []
  | l :: ls =>
    match assembleText l, assembleProgram ls with
    | some xs, some ys => some (xs ++ ys)
    | _, _ => none

end Sys2Proof.Machine
end

