-- ==== Sys2Proof/Safety.lean ====
section
/-! DEFINITION. What claims are stated in: the well-formed states, the host's duties, safe runs, and the end of a
run. -/

namespace Sys2Proof.Machine

/-- An engine's configuration is either that of an unconstructed engine or derived from some polynomial
(`10_state.md` R30: "While `valid = 1`, the fields satisfy" `42_bitwise_engine.md` R120). -/
def EngineCfg.Derived {W : Nat} (c : EngineCfg W) : Prop :=
  c = EngineCfg.unconfigured W ∨ ∃ P : BitVec W, c = derive c.dir P

/-- Every address of a list of cells is an address of data memory. -/
def cellsBelow (memBytes : Nat) (m : List Host.Cell) : Prop := ∀ c ∈ m, c.1 < memBytes

/-- What holds of the machine in every state a run reaches. -/
structure State.Wf (s : State) : Prop where
  /-- R7. -/
  size : s.params.legal
  /-- Data memory is in canonical form. -/
  canonical : Memory.wf s.mem = true
  /-- Data memory holds only bytes at addresses R7 names. -/
  inMemory : cellsBelow s.params.memBytes s.mem
  /-- R30 for BW. -/
  bwDerived : s.bw.Derived
  /-- R30 for TB. -/
  tbDerived : s.tb.Derived
  /-- R140: a constructed table engine's table is the one built from its configuration. -/
  tableBuilt : s.tb.valid = true → s.table = buildTable s.tb
  /-- The values remembered for R59 are those of bytes of data memory. -/
  heldInMemory : ∀ p, s.pend = some p → cellsBelow s.params.memBytes p.held

/-- Byte `a` is in the range a command reads if it is a `crc.*` (`20_memory.md` R51). -/
def Pending.covers {W : Nat} (p : Pending W) (a : Nat) : Prop := p.addr.toNat ≤ a ∧ a < p.addr.toNat + p.len.toNat

/-- The host has kept the duty of `70_reset_and_hazards.md` R197 so far: it has written no byte of the range of the
command in flight. -/
def State.BufferKept (s : State) : Prop := ∀ p, s.pend = some p → ∀ c ∈ p.held, ¬ p.covers c.1

/-- A host program that writes data memory only where there is some (R193: `a < MEM_BYTES`). -/
def programInMemory (memBytes : Nat) (prog : List HostAction) : Prop :=
  ∀ a b, HostAction.memWrite a b ∈ prog → a < memBytes

/-- A safe run of `n` steps: no fault and no refusal. -/
def SafeRun (n : Nat) (s : State) : Prop := ∃ t, Host.Core.run core n s = .next t

/-- The host has read STATUS with BUSY = 0 since its last write to CMD (notes newest first). A host that has written no
command at all needs no such read (R200 does not say: DESIGN CHOICE, log entry 18). -/
def polledSinceCmd : List Note → Bool
  | [] => true
  | .saw .status v :: notes => !v.getLsbD 0 || polledSinceCmd notes
  | .wrote .cmd _ :: _ => false
  | _ :: notes => polledSinceCmd notes

/-- The end of a run (`70_reset_and_hazards.md` R200): the host has made its last transaction, `busy = 0`, and the host
has read STATUS with BUSY = 0 after its last CMD write. -/
def State.runEnded (s : State) : Bool := s.program.isEmpty && !s.busy && polledSinceCmd s.notes

end Sys2Proof.Machine
end

