-- ==== Sys2Proof/Certificates/Slice0/Obligations.lean ====
section
/-! DEFINITION. The statements about this model, for the provers. Each docstring names the rules of `spec/` the
statement formalises. `{ s with … }` on the right of an equation is also the frame: every field not written there keeps
its value, memory and the host's fields among them. -/

open Sys2Proof Sys2Proof.Machine

/-! ## Encoding (`30_encoding.md`) -/

/-- Words of R78's table and of R74's patterns decode to the commands they stand for. -/
def Obligations.TableWordsDecodeToTheirCommands : Prop :=
  decode 0x00000001#32 = .instr (.cfgBw .msbFirst) ∧ decode 0x00000021#32 = .instr (.cfgBw .lsbFirst) ∧
  decode 0x00000011#32 = .instr (.cfgTb .msbFirst) ∧ decode 0x00000031#32 = .instr (.cfgTb .lsbFirst) ∧
  decode 0x00000002#32 = .instr .crcBw ∧ decode 0x00000012#32 = .instr .crcTb ∧
  decode 0x00000003#32 = .instr .rev ∧
  decode 0x00000404#32 = .instr (.shiftBw 4) ∧ decode 0x00000814#32 = .instr (.shiftTb 8) ∧
  decode 0x00000105#32 = .instr (.tblrd 1) ∧ decode 0x0000FF05#32 = .instr (.tblrd 255)

/-- Decoding an encoded well-formed command gives it back, with every operand at every value its field admits
(R70, R71, R74, R75). -/
def Obligations.DecodeOfEncodeIsTheCommand : Prop :=
  ∀ i : Instr, i.wellFormed = true → decode (encode i) = .instr i

/-- A word that decodes is the word of the command it decodes to, and that command is well formed (R74, R75). -/
def Obligations.EncodeOfDecodeIsTheWord : Prop :=
  ∀ (w : CmdWord) (i : Instr), decode w = .instr i → i.wellFormed = true ∧ encode i = w

/-- R74: "at most one row matches any word". -/
def Obligations.AtMostOneRowMatchesAWord : Prop :=
  ∀ (w : CmdWord) (r r' : Row), r.hits w = true → r'.hits w = true → r = r'

/-- R76: the illegal words are those of its six bullets; each completes with ERR = ILLEGAL, changing nothing else; and
bits 63:32 of a CMD write are ignored. The word is given by its fields of R70. -/
def Obligations.IllegalWordsAreThoseOfTheReservedEncodings : Prop :=
  (∀ w : CmdWord, (∃ why, decode w = .illegal why) ↔
    (opField w = 0#4 ∨ 6 ≤ (opField w).toNat ∨ rsv0Field w ≠ 0#2 ∨ rsv1Field w ≠ 0#16 ∨
      (opField w ∈ [2#4, 3#4, 4#4, 5#4] ∧ dirField w = 1#1) ∨
      (opField w ∈ [1#4, 2#4, 3#4] ∧ imm8Field w ≠ 0#8) ∨
      (opField w ∈ [3#4, 5#4] ∧ engField w = 1#1))) ∧
  (∀ (s : State) (p : Pending s.params.W) (why : Illegal), s.pend = some p → decode p.word = .illegal why →
    s.executorTurn = .next { s with err := .illegal, pend := none }) ∧
  (∀ (s : State) (v v' : HostWord), v.setWidth 32 = v'.setWidth 32 → s.regWrite .cmd v = s.regWrite .cmd v')

/-- `95_test_vectors.md` V-ERR-28: 775 of the 2^32 command words are legal. -/
def Obligations.LegalWordsNumberSevenHundredSeventyFive : Prop :=
  ∃ l : List CmdWord, l.Nodup ∧ l.length = 775 ∧ ∀ w : CmdWord, (∃ i, decode w = .instr i) ↔ w ∈ l

/-! ## The step (`70_reset_and_hazards.md` R191 to R193) -/

/-- R192: when the executor's turn comes and the command in flight decodes to `i`, the step is `exec i`, the schedule
shortened by that turn; with an empty schedule a command in flight moves first (log entry 4, the model's choice). -/
def Obligations.StepRunsTheDecodedCommand : Prop :=
  ∀ (s : State) (p : Pending s.params.W) (i : Instr), s.pend = some p → decode p.word = .instr i →
    (∀ rest, s.turns = .executor :: rest → step s = exec i (s.setTurns rest)) ∧
    (s.turns = [] → step s = exec i s)

/-- The word the opcode table numbers is accepted as if the host had written it to CMD, and the next step runs the
command it decodes to (log entry 8). -/
def Obligations.StepRunsTheWordPlacedForIt : Prop :=
  ∀ (s : State) (nbits w : Nat) (i : Instr), decodeTableWord nbits w = some i →
    step (s.withFetchWord nbits w) = exec i (s.accept (tableWord nbits w))

/-- R193's step relation for the host: when its turn comes, or when the schedule is empty and no command is in flight
(log entry 4, the model's choice), its next transaction is done. HostWrite does the register write of R23, with a value
of the host's own or with the value it read last (0 where it has read nothing: log entry 7, the model's choice), and
notes it in `notes`, the model's own field. A turn that nobody can use changes nothing (log entry 6, the model's
choice). -/
def Obligations.StepDoesTheHostsNextTransaction : Prop :=
  ∀ (s : State) (rest : List Turn),
    (s.turns = .host :: rest → ∀ (x : HostAction) (xs : List HostAction), s.program = x :: xs →
      step s = ((s.setTurns rest).setProgram xs).hostDo x) ∧
    (s.turns = [] → s.pend = none → ∀ (x : HostAction) (xs : List HostAction), s.program = x :: xs →
      step s = (s.setProgram xs).hostDo x) ∧
    (∀ (r : Reg) (v : HostWord),
      s.hostDo (.write r v) = .next { s.regWrite r v with notes := .wrote r v :: s.notes } ∧
      (v = lastSeen s.notes →
        s.hostDo (.writeBack r) = .next { s.regWrite r v with notes := .wrote r v :: s.notes })) ∧
    (s.turns = .host :: rest → s.program = [] → step s = .next (s.setTurns rest)) ∧
    (s.turns = .executor :: rest → s.pend = none → step s = .next (s.setTurns rest)) ∧
    (s.turns = [] → s.pend = none → s.program = [] → step s = .next s)

/-- R196: a command in flight uses the copies taken at acceptance, so a write to VAL, ADDR or LEN during it and its
completion may be exchanged. -/
def Obligations.OperandWritesCommuteWithCompletion : Prop :=
  ∀ (i : Instr) (s t : State) (r : Reg) (v : HostWord), r = .val ∨ r = .addr ∨ r = .len → s.busy = true →
    exec i s = .next t → exec i (s.regWrite r v) = .next (t.regWrite r v)

/-- Every step answers a next state, except the host's memory write to an address that is none of data memory, which
faults with that address (R193: `a < MEM_BYTES`; the fault is the model's choice, log entry 11). -/
def Obligations.OnlyAMemoryWriteOutsideMemoryStops : Prop :=
  ∀ s : State, (∃ t, step s = .next t) ∨
    ∃ (a : Nat) (b : Byte) (rest : List HostAction), s.program = .memWrite a b :: rest ∧ s.params.memBytes ≤ a ∧
      step s = .fault (.noSuchAddress a)

/-- A host program that writes memory only where there is some never stops the machine, whatever the schedule: no
command faults, and an error is no trap (R171, R173). -/
def Obligations.ProgramInsideMemoryNeverStops : Prop :=
  ∀ (s : State) (n : Nat), programInMemory s.params.memBytes s.program → SafeRun n s

/-- `00_scope.md` R8: every accepted command completes, whatever the schedule, unless a reset of the schedule abandons
it: after at most as many steps as the schedule has entries (the fairness of log entry 4, the model's choice) the
command still stands in the latch as accepted, and the next step is the executor's turn, which ends it. With a reset in
the schedule too, BUSY falls at the latest one step later. The host writes memory only where there is some. -/
def Obligations.EveryAcceptedCommandCompletes : Prop :=
  ∀ (s : State) (p : Pending s.params.W), programInMemory s.params.memBytes s.program → s.pend = some p →
    (Turn.reset ∉ s.turns → ∃ (j : Nat) (u t : State) (q : Pending u.params.W),
      j ≤ s.turns.length ∧ Host.Core.run core j s = .next u ∧
      u.pend = some q ∧ q.word = p.word ∧ q.val.toNat = p.val.toNat ∧ q.addr = p.addr ∧ q.len = p.len ∧
      step u = (u.setTurns u.turns.tail).executorTurn ∧ step u = .next t ∧ t.busy = false) ∧
    ∃ j t, j ≤ s.turns.length + 1 ∧ Host.Core.run core j s = .next t ∧ t.busy = false

/-- R200, the end of a run: with no reset to come, what remains of the schedule changes nothing but the schedule
(log entry 6, the model's choice: a turn its agent cannot use changes nothing). That a run without any CMD write can be
at its end is log entry 18, the model's choice. -/
def Obligations.EndedRunStaysAsItIs : Prop :=
  ∀ s : State, s.runEnded = true → Turn.reset ∉ s.turns → step s = .next { s with turns := s.turns.tail }

/-! ## Host access to registers (`10_state.md`) -/

/-- R20: the register numbers of the map, one register to each. -/
def Obligations.RegisterNumbersAreThoseOfTheMap : Prop :=
  (∀ r : Reg, regOfNumber (regNumber r) = r) ∧ (∀ n : Fin 16, regNumber (regOfNumber n) = n) ∧
  regNumber .cmd = 0 ∧ regNumber .val = 1 ∧ regNumber .addr = 2 ∧ regNumber .len = 3 ∧ regNumber .result = 4 ∧
  regNumber .status = 5 ∧ regNumber .param = 6 ∧ regNumber .rsv7 = 7 ∧ regNumber .bwCfg = 8 ∧ regNumber .bwPoly = 9 ∧
  regNumber .bwMask = 10 ∧ regNumber .rsv11 = 11 ∧ regNumber .tbCfg = 12 ∧ regNumber .tbPoly = 13 ∧
  regNumber .tbMask = 14 ∧ regNumber .rsv15 = 15

/-- R23: what a host write does to each register. -/
def Obligations.HostWriteOfEachRegister : Prop :=
  ∀ (s : State) (v : HostWord),
    (∃ x : BitVec s.params.W, x.toNat = v.toNat % 2 ^ s.params.W ∧ s.regWrite .val v = { s with val := x }) ∧
    s.regWrite .addr v = { s with addr := v } ∧ s.regWrite .len v = { s with len := v } ∧
    (v.getLsbD 8 = true → s.regWrite .status v = { s with ovr := false }) ∧
    (v.getLsbD 8 = false → s.regWrite .status v = s) ∧
    (∀ r ∈ [Reg.result, .param, .bwCfg, .bwPoly, .bwMask, .tbCfg, .tbPoly, .tbMask, .rsv7, .rsv11, .rsv15],
      s.regWrite r v = s) ∧
    (s.pend = none → s.regWrite .cmd v =
      { s with pend := some { word := v.setWidth 32, val := s.val, addr := s.addr, len := s.len, held := [] } }) ∧
    (∀ p, s.pend = some p → s.regWrite .cmd v = { s with ovr := true })

/-- R24, R31, R32, R33: what a host read of each register returns, as a number. -/
def Obligations.HostReadOfEachRegister : Prop :=
  ∀ s : State,
    (s.regRead .val).toNat = s.val.toNat ∧ s.regRead .addr = s.addr ∧ s.regRead .len = s.len ∧
    (s.regRead .result).toNat = s.result.toNat ∧ (s.regRead .param).toNat = s.params.W ∧
    (s.regRead .bwPoly).toNat = s.bw.poly.toNat ∧ (s.regRead .bwMask).toNat = s.bw.mask.toNat ∧
    (s.regRead .tbPoly).toNat = s.tb.poly.toNat ∧ (s.regRead .tbMask).toNat = s.tb.mask.toNat ∧
    (∀ r ∈ [Reg.cmd, .rsv7, .rsv11, .rsv15], s.regRead r = 0) ∧
    (∀ (r : Reg) (c : EngineCfg s.params.W), (r = .bwCfg ∧ c = s.bw) ∨ (r = .tbCfg ∧ c = s.tb) → c.pack < 256 →
      (s.regRead r).toNat =
        (if c.valid then 1 else 0) + 2 * (if c.dir = .lsbFirst then 1 else 0) + 256 * c.pack)

/-- R29, R170: STATUS holds BUSY at bit 0, the ERR code (0 to 3) at bits 7:4, OVR at bit 8, and nothing else. -/
def Obligations.StatusHoldsBusyErrOvr : Prop :=
  ∀ s : State, (s.regRead .status).toNat =
    (if s.busy then 1 else 0) +
      16 * (match s.err with | .none => 0 | .illegal => 1 | .nocfg => 2 | .range => 3) +
      256 * (if s.ovr then 1 else 0)

/-- R24: a host read changes no state of the block or of data memory. Acceptance changes what no register but STATUS
reads; and from then until the command leaves the latch, no step changes what a register other than STATUS reads, except
that VAL, ADDR and LEN take what the host itself writes there. -/
def Obligations.ReadsHaveNoEffectAndSeeTheStateBeforeTheCommand : Prop :=
  (∀ (s : State) (r : Reg), s.hostDo (.read r) = .next { s with notes := .saw r (s.regRead r) :: s.notes }) ∧
  (∀ (s : State) (v : HostWord) (r : Reg), s.pend = none → r ≠ .status →
    (s.regWrite .cmd v).regRead r = s.regRead r) ∧
  (∀ (s : State) (v : HostWord), s.pend = none → ((s.regWrite .cmd v).regRead .status).getLsbD 0 = true) ∧
  (∀ (s t : State) (r : Reg), step s = .next t → s.busy = true → t.busy = true → r ≠ .status →
    (r ∈ [Reg.val, .addr, .len] → s.program.head? ≠ some (.writeBack r) ∧
      ∀ v : HostWord, s.program.head? ≠ some (.write r v)) →
    t.regRead r = s.regRead r)

/-- R29: OVR is cleared by a STATUS write with bit 8 = 1 or by reset, and set by a CMD write while BUSY = 1, alone. -/
def Obligations.OverrunIsStickyUntilClearedOrReset : Prop :=
  ∀ s t : State, step s = .next t →
    (s.ovr = true → t.ovr = false → s.turns.head? = some .reset ∨ ∃ (v : HostWord) (rest : List HostAction),
      (s.program = .write .status v :: rest ∨ (s.program = .writeBack .status :: rest ∧ v = lastSeen s.notes)) ∧
      v.getLsbD 8 = true) ∧
    (s.ovr = false → t.ovr = true → s.busy = true ∧ ∃ (v : HostWord) (rest : List HostAction),
      s.program = .write .cmd v :: rest ∨ (s.program = .writeBack .cmd :: rest ∧ v = lastSeen s.notes))

/-- R29: ERR changes only at a completion, where a command in flight ends, or at reset. -/
def Obligations.ErrIsWrittenOnlyAtCompletionOrReset : Prop :=
  ∀ s t : State, step s = .next t → t.err ≠ s.err →
    (s.busy = true ∧ t.busy = false) ∨ s.turns.head? = some .reset

/-- R21, R28: RESULT changes only at reset, or where a command that writes it, so neither `cfg.bw` nor `cfg.tb`,
completes with ERR = NONE. No host write and no other step changes it. -/
def Obligations.ResultIsWrittenOnlyAtCompletionOrReset : Prop :=
  ∀ s t : State, step s = .next t → t.result.toNat ≠ s.result.toNat →
    (∃ (p : Pending s.params.W) (i : Instr), s.pend = some p ∧ decode p.word = .instr i ∧
      (∀ d, i ≠ .cfgBw d ∧ i ≠ .cfgTb d) ∧ t.busy = false ∧ t.err = .none) ∨
    s.turns.head? = some .reset

/-! ## Reset (`70_reset_and_hazards.md` R190) -/

/-- R190: reset gives every register and configuration field its reset value, abandons the command in flight, and
leaves data memory. Nothing is said of the table, whose contents are unspecified. -/
def Obligations.ResetGivesTheResetValues : Prop :=
  ∀ (s : State) (rest : List Turn), s.turns = .reset :: rest → ∃ T,
    step s = .next { s with
      val := 0, addr := 0, len := 0, result := 0, err := .none, ovr := false, pend := none, table := T, turns := rest,
      bw := { valid := false, dir := .msbFirst, poly := 0, mask := 0, pack := 0 },
      tb := { valid := false, dir := .msbFirst, poly := 0, mask := 0, pack := 0 } }

/-- R20, R190: what the host reads of every register after reset: PARAM is W, every other register reads 0. -/
def Obligations.EveryRegisterReadsItsResetValue : Prop :=
  ∀ (p : Params) (r : Reg),
    ((State.resetOf p).regRead r).toNat = if r = .param then p.W else 0

/-! ## The commands -/

/-- R100, R101: `rev`, whose word is 0x00000003 (any other word with OP = 3 is illegal), completes with the bits of
VAL's copy in reverse order in RESULT, whatever the engines are. -/
def Obligations.RevReversesValIntoResult : Prop :=
  decode 0x00000003#32 = .instr .rev ∧
  (∀ w : CmdWord, opField w = 3#4 → w ≠ 0x00000003#32 → ∃ why, decode w = .illegal why) ∧
  ∀ (s : State) (p : Pending s.params.W), s.pend = some p →
    ∃ y : BitVec s.params.W,
      (∀ i, i < s.params.W → y.getLsbD (s.params.W - 1 - i) = p.val.getLsbD i) ∧
      exec .rev s = .next { s with result := y, err := .none, pend := none }

/-- R113 and R114, with R110 and R111: the words of the two shift commands (any other word with OP = 4 is illegal); a
shift command completes with VAL's copy shifted in its engine's direction, by any count, or with NOCFG and nothing else
changed when the engine was never configured. -/
def Obligations.ShiftCommandsShiftInTheirEnginesDirection : Prop :=
  (∀ n : Nat, n ≤ 255 → decode (BitVec.ofNat 32 (0x4 + 256 * n)) = .instr (.shiftBw n) ∧
    decode (BitVec.ofNat 32 (0x14 + 256 * n)) = .instr (.shiftTb n)) ∧
  (∀ w : CmdWord, opField w = 4#4 → (∀ n : Nat, n ≤ 255 → w ≠ BitVec.ofNat 32 (0x4 + 256 * n) ∧
    w ≠ BitVec.ofNat 32 (0x14 + 256 * n)) → ∃ why, decode w = .illegal why) ∧
  ∀ (s : State) (p : Pending s.params.W) (n : Nat) (i : Instr) (c : EngineCfg s.params.W), s.pend = some p →
    (i = .shiftBw n ∧ c = s.bw) ∨ (i = .shiftTb n ∧ c = s.tb) →
    (c.valid = false → exec i s = .next { s with err := .nocfg, pend := none }) ∧
    (c.valid = true → ∃ y : BitVec s.params.W,
      y.toNat = (if n < s.params.W then
        (match c.dir with
          | .msbFirst => p.val.toNat * 2 ^ n % 2 ^ s.params.W
          | .lsbFirst => p.val.toNat / 2 ^ n) else 0) ∧
      exec i s = .next { s with result := y, err := .none, pend := none })

/-- R120, R121, R124: `cfg.bw d`, by its two words (any other word with OP = 1 and ENG = 0 is illegal), replaces the
bitwise engine's configuration by the derived one, and writes nothing else but ERR = NONE. -/
def Obligations.CfgBwConstructsTheBitwiseEngine : Prop :=
  (∀ d : Dir, decode (if d = .msbFirst then 0x00000001#32 else 0x00000021#32) = .instr (.cfgBw d)) ∧
  (∀ w : CmdWord, opField w = 1#4 → engField w = 0#1 → w ∉ [0x00000001#32, 0x00000021#32] →
    ∃ why, decode w = .illegal why) ∧
  ∀ (s : State) (p : Pending s.params.W) (d : Dir), s.pend = some p →
    ∃ c : EngineCfg s.params.W,
      exec (.cfgBw d) s = .next { s with bw := c, err := .none, pend := none } ∧ c.valid = true ∧ c.dir = d ∧
      (d = .msbFirst → c.poly = p.val ∧ c.mask.toNat = 2 ^ (s.params.W - 1) ∧ c.pack = s.params.W - 8) ∧
      (d = .lsbFirst → (∀ i, i < s.params.W → c.poly.getLsbD (s.params.W - 1 - i) = p.val.getLsbD i) ∧
        c.mask.toNat = 1 ∧ c.pack = 0)

/-- R140, R141, R142: `cfg.tb d`, by its two words (any other word with OP = 1 and ENG = 1 is illegal), replaces the
table engine's configuration and its whole table, entry `i` being `BwByte(c, 0, i)` of the new configuration, and writes
nothing else but ERR = NONE. -/
def Obligations.CfgTbConstructsTheTableEngine : Prop :=
  (∀ d : Dir, decode (if d = .msbFirst then 0x00000011#32 else 0x00000031#32) = .instr (.cfgTb d)) ∧
  (∀ w : CmdWord, opField w = 1#4 → engField w = 1#1 → w ∉ [0x00000011#32, 0x00000031#32] →
    ∃ why, decode w = .illegal why) ∧
  ∀ (s : State) (p : Pending s.params.W) (d : Dir), s.pend = some p →
    ∃ (c : EngineCfg s.params.W) (T : Table s.params.W),
      exec (.cfgTb d) s = .next { s with tb := c, table := T, err := .none, pend := none } ∧
      c.valid = true ∧ c.dir = d ∧
      (d = .msbFirst → c.poly = p.val ∧ c.mask.toNat = 2 ^ (s.params.W - 1) ∧ c.pack = s.params.W - 8) ∧
      (d = .lsbFirst → (∀ i, i < s.params.W → c.poly.getLsbD (s.params.W - 1 - i) = p.val.getLsbD i) ∧
        c.mask.toNat = 1 ∧ c.pack = 0) ∧
      ∀ i : Fin 256, T[i] = bwByte c 0 (BitVec.ofNat 8 i.val)

/-- R126, R52: `crc.bw`, whose word is 0x00000002 (any other word with OP = 2 and ENG = 0 is illegal), fails with NOCFG,
then with RANGE, and else folds `BwByte` over the `L` bytes read at `A, A+1, …` in that order, from the seed. (`draws`
counts the model's free values, log entry 3.) -/
def Obligations.CrcBwFoldsTheBytesOfTheRange : Prop :=
  decode 0x00000002#32 = .instr .crcBw ∧
  (∀ w : CmdWord, opField w = 2#4 → engField w = 0#1 → w ≠ 0x00000002#32 → ∃ why, decode w = .illegal why) ∧
  ∀ (s : State) (p : Pending s.params.W), s.pend = some p →
    (s.bw.valid = false → exec .crcBw s = .next { s with err := .nocfg, pend := none }) ∧
    (s.bw.valid = true → p.len ≠ 0 → s.params.memBytes < p.addr.toNat + p.len.toNat →
      exec .crcBw s = .next { s with err := .range, pend := none }) ∧
    (s.bw.valid = true → (p.len = 0 ∨ p.addr.toNat + p.len.toNat ≤ s.params.memBytes) →
      ∃ bytes : List Byte, bytes.length = p.len.toNat ∧
        (∀ k, k < p.len.toNat → bytes[k]? = some (s.memRead p k (p.addr.toNat + k))) ∧
        exec .crcBw s = .next { s with
          result := bytes.foldl (bwByte s.bw) p.val, err := .none, pend := none, draws := s.draws + p.len.toNat })

/-- R144, R143: `crc.tb`, whose word is 0x00000012 (any other word with OP = 2 and ENG = 1 is illegal), as `crc.bw`, with
the table update: index from the register before the 8-bit shift. -/
def Obligations.CrcTbFoldsTheBytesOfTheRange : Prop :=
  decode 0x00000012#32 = .instr .crcTb ∧
  (∀ w : CmdWord, opField w = 2#4 → engField w = 1#1 → w ≠ 0x00000012#32 → ∃ why, decode w = .illegal why) ∧
  ∀ (s : State) (p : Pending s.params.W), s.pend = some p →
    (s.tb.valid = false → exec .crcTb s = .next { s with err := .nocfg, pend := none }) ∧
    (s.tb.valid = true → p.len ≠ 0 → s.params.memBytes < p.addr.toNat + p.len.toNat →
      exec .crcTb s = .next { s with err := .range, pend := none }) ∧
    (s.tb.valid = true → (p.len = 0 ∨ p.addr.toNat + p.len.toNat ≤ s.params.memBytes) →
      ∃ (bytes : List Byte) (upd : BitVec s.params.W → Byte → BitVec s.params.W), bytes.length = p.len.toNat ∧
        (∀ k, k < p.len.toNat → bytes[k]? = some (s.memRead p k (p.addr.toNat + k))) ∧
        (∀ r b, ∃ idx : Fin 256,
          idx.val = ((dirBack s.tb.dir r s.tb.pack) ^^^ b.setWidth s.params.W).toNat % 256 ∧
          upd r b = dirShift s.tb.dir r 8 ^^^ s.table[idx]) ∧
        exec .crcTb s = .next { s with
          result := bytes.foldl upd p.val, err := .none, pend := none, draws := s.draws + p.len.toNat })

/-- R145: `tblrd i`, by its words (any other word with OP = 5 is illegal), puts table entry `i` in RESULT, or fails with
NOCFG. -/
def Obligations.TblrdReadsTheEntry : Prop :=
  (∀ i : Fin 256, decode (BitVec.ofNat 32 (0x5 + 256 * i.val)) = .instr (.tblrd i)) ∧
  (∀ w : CmdWord, opField w = 5#4 → (∀ i : Fin 256, w ≠ BitVec.ofNat 32 (0x5 + 256 * i.val)) →
    ∃ why, decode w = .illegal why) ∧
  ∀ (s : State) (p : Pending s.params.W) (i : Fin 256), s.pend = some p →
    (s.tb.valid = false → exec (.tblrd i) s = .next { s with err := .nocfg, pend := none }) ∧
    (s.tb.valid = true →
      exec (.tblrd i) s = .next { s with result := s.table[i], err := .none, pend := none })

/-- The frame of every command (R21, R27, R28, R35, R53): VAL, ADDR, LEN, OVR, data memory and the host's fields are
never written; only `cfg.bw` writes `cfg[BW]`; only `cfg.tb` writes `cfg[TB]` and the table; a `cfg.*` or a failing
command leaves RESULT; only `crc.*` uses draws. -/
def Obligations.CommandsWriteOnlyWhatTheyMay : Prop :=
  ∀ (i : Instr) (s t : State), exec i s = .next t →
    ∃ r e bw tb T p d,
      t = { s with result := r, err := e, bw := bw, tb := tb, table := T, pend := p, draws := d } ∧
      ((∀ d, i ≠ .cfgBw d) → bw = s.bw) ∧ ((∀ d, i ≠ .cfgTb d) → tb = s.tb ∧ T = s.table) ∧
      ((∃ d, i = .cfgBw d ∨ i = .cfgTb d) ∨ (s.busy = true ∧ e ≠ .none) → r = s.result) ∧
      (i ≠ .crcBw → i ≠ .crcTb → d = s.draws)

/-- R53: nothing the block does writes data memory, whichever command completes, whichever register the host writes or
reads, and on reset: every address reads as before. -/
def Obligations.BlockLeavesEveryByteOfMemory : Prop :=
  ∀ (s t : State) (a : Nat),
    (∀ i : Instr, exec i s = .next t → Memory.read t.mem a = Memory.read s.mem a) ∧
    (s.executorTurn = .next t → Memory.read t.mem a = Memory.read s.mem a) ∧
    (∀ (r : Reg) (v : HostWord), Memory.read (s.regWrite r v).mem a = Memory.read s.mem a) ∧
    (s.takeTurn .reset = .next t → Memory.read t.mem a = Memory.read s.mem a)

/-! ## Errors (`60_exceptions.md`) -/

/-- R171: a command that completes with an error changes nothing but ERR and BUSY, an illegal word's too. -/
def Obligations.FailedCommandChangesOnlyErr : Prop :=
  ∀ s t : State, s.busy = true → s.executorTurn = .next t → t.err ≠ .none →
    t = { s with err := t.err, pend := none }

/-- R170: the one code each completion writes. NOCFG exactly when the engine the command needs is not valid, RANGE
exactly when a `crc.*` on a valid engine has a non-empty range that ends past data memory, ILLEGAL only for words that
decode to no command. -/
def Obligations.ErrCodeOfEachCompletion : Prop :=
  ∀ (s t : State) (p : Pending s.params.W), s.pend = some p → s.executorTurn = .next t →
    (t.err = .illegal ↔ ∃ why, decode p.word = .illegal why) ∧
    ∀ i, decode p.word = .instr i →
      (t.err = .nocfg ↔
        (s.bw.valid = false ∧ (i = .crcBw ∨ ∃ n, i = .shiftBw n)) ∨
        (s.tb.valid = false ∧ (i = .crcTb ∨ (∃ n, i = .shiftTb n) ∨ ∃ k, i = .tblrd k))) ∧
      (t.err = .range ↔
        ((i = .crcBw ∧ s.bw.valid = true) ∨ (i = .crcTb ∧ s.tb.valid = true)) ∧
          p.len ≠ 0 ∧ s.params.memBytes < p.addr.toNat + p.len.toNat)

/-- R172: ILLEGAL before everything, NOCFG before RANGE, OVR independent of ERR, and reset before all. -/
def Obligations.ErrorPriority : Prop :=
  ∀ (s : State) (p : Pending s.params.W), s.pend = some p →
    (∀ why, decode p.word = .illegal why → s.executorTurn = .next { s with err := .illegal, pend := none }) ∧
    (decode p.word = .instr .crcBw → s.bw.valid = false → p.len ≠ 0 →
      s.params.memBytes < p.addr.toNat + p.len.toNat →
      s.executorTurn = .next { s with err := .nocfg, pend := none }) ∧
    (decode p.word = .instr .crcTb → s.tb.valid = false → p.len ≠ 0 →
      s.params.memBytes < p.addr.toNat + p.len.toNat →
      s.executorTurn = .next { s with err := .nocfg, pend := none }) ∧
    (∀ v, s.regWrite .cmd v = { s with ovr := true }) ∧
    (∃ t, s.takeTurn .reset = .next t ∧ t.pend = none ∧ t.err = .none ∧ t.result.toNat = 0)

/-! ## Data memory and the read port (`20_memory.md`) -/

/-- R193's HostMemWrite: an address of data memory takes the byte, every other byte reads as before, the canonical form
stays, and nothing else changes: no register, no configuration, no table, and of a command in flight the word and the
operands stay (`held`, the model's own, may grow: log entry 3). An address outside data memory faults (the model's
choice, log entry 11). -/
def Obligations.HostMemWriteStoresOneByte : Prop :=
  ∀ (s : State) (a : Nat) (b : Byte), Memory.wf s.mem = true →
    (a < s.params.memBytes → ∃ (m : Memory) (q : Option (Pending s.params.W)),
      s.hostDo (.memWrite a b) = .next { s with mem := m, pend := q } ∧ Memory.wf m = true ∧
      (∀ a', Memory.read m a' = if a' = a then b else Memory.read s.mem a') ∧
      (s.pend = none → q = none) ∧
      ∀ p, s.pend = some p → ∃ h, q = some { p with held := h }) ∧
    (s.params.memBytes ≤ a → s.hostDo (.memWrite a b) = .fault (.noSuchAddress a))

/-- R50, R51, R52: a range that passes the check lies in data memory; and a `crc.*` reads no byte outside its range or
outside data memory: with any other contents there it completes as before. No other command reads data memory at all. -/
def Obligations.EveryReadIsInsideMemory : Prop :=
  (∀ (memBytes : Nat) (addr len : BitVec 64) (k : Nat), rangeLegal memBytes addr len = true → k < len.toNat →
    addr.toNat + k < memBytes) ∧
  ∀ (s t : State) (p : Pending s.params.W) (i : Instr) (m : Memory), s.pend = some p → exec i s = .next t →
    (i = .crcBw ∨ i = .crcTb → ∀ k, k < p.len.toNat → p.addr.toNat + k < s.params.memBytes →
      Memory.read m (p.addr.toNat + k) = Memory.read s.mem (p.addr.toNat + k)) →
    exec i { s with mem := m } = .next { t with mem := m }

/-- R59: during a command, after any host turns that end in a state `t`, the values `heldValues` gives for byte `a` are
exactly those the byte held at some moment since acceptance, and a read returns one of them. (`heldValues` and
`Pending.held` are the form log entry 3 gives the set `S(a)`.) -/
def Obligations.ReadsReturnAValueHeldDuringTheCommand : Prop :=
  ∀ (s t : State) (p : Pending s.params.W) (k : Nat) (rest : List Turn), Memory.wf s.mem = true →
    s.pend = some p → p.held = [] → s.turns = List.replicate k .host ++ rest → Host.Core.run core k s = .next t →
    ∃ q, t.pend = some q ∧ q.word = p.word ∧ q.addr = p.addr ∧ q.len = p.len ∧ q.val.toNat = p.val.toNat ∧
      ∀ a : Nat,
        (∀ v : Byte, v ∈ t.heldValues q a ↔
          ∃ j u, j ≤ k ∧ Host.Core.run core j s = .next u ∧ Memory.read u.mem a = v) ∧
        ∀ n, t.memRead q n a ∈ t.heldValues q a

/-- R59, R126, R144: when the host has kept the duty of R197, a `crc.*` computes over the bytes stored in its range,
with no free value. -/
def Obligations.CrcOverAKeptBufferReadsTheStoredBytes : Prop :=
  ∀ (s : State) (p : Pending s.params.W), s.pend = some p → s.BufferKept →
    (p.len = 0 ∨ p.addr.toNat + p.len.toNat ≤ s.params.memBytes) →
    ∀ bytes, bytes = (List.range p.len.toNat).map (fun k => Memory.read s.mem (p.addr.toNat + k)) →
      (s.bw.valid = true → exec .crcBw s = .next { s with
        result := bwCompute s.bw p.val bytes, err := .none, pend := none, draws := s.draws + p.len.toNat }) ∧
      (s.tb.valid = true → exec .crcTb s = .next { s with
        result := tbCompute s.tb s.table p.val bytes, err := .none, pend := none, draws := s.draws + p.len.toNat })

/-! ## Laws of the units (`40_bit_reversal.md` to `43_table_engine.md`) -/

/-- R102: `BitReverse_W(BitReverse_W(x)) = x`. -/
def Obligations.BitReversalIsAnInvolution : Prop :=
  ∀ (w : Width) (x : BitVec w.bits), bitReverse (bitReverse x) = x

/-- R115: the four laws of the directional shift. -/
def Obligations.DirectionalShiftLaws : Prop :=
  ∀ (w : Width) (x : BitVec w.bits) (d : Dir) (a b n : Nat),
    dirShift d x 0 = x ∧ dirShift d (dirShift d x a) b = dirShift d x (a + b) ∧
    (w.bits ≤ n → dirShift d x n = 0) ∧
    dirShift .msbFirst x n = bitReverse (dirShift .lsbFirst (bitReverse x) n)

/-- R122, R120: the bit under the mask is tested, then comes the shift in the engine's direction, then the XOR with the
stored polynomial; in numbers, for both directions. -/
def Obligations.BitStepTestsShiftsThenXors : Prop :=
  ∀ (w : Width) (P r : BitVec w.bits),
    bitStep (derive .msbFirst P) r =
      (if 2 ^ (w.bits - 1) ≤ r.toNat then BitVec.ofNat w.bits (r.toNat * 2) ^^^ P
        else BitVec.ofNat w.bits (r.toNat * 2)) ∧
    bitStep (derive .lsbFirst P) r =
      (if r.toNat % 2 = 1 then BitVec.ofNat w.bits (r.toNat / 2) ^^^ bitReverse P
        else BitVec.ofNat w.bits (r.toNat / 2))

/-- R123, R125, R127, R128: the byte is XORed in at the pack offset, none of its bits lost, then eight bit steps follow;
the CRC of a sequence takes its bytes first to last, and that of no bytes is the seed. -/
def Obligations.ByteUpdateCombinesThenStepsEightTimes : Prop :=
  (∀ (w : Width) (d : Dir) (P r : BitVec w.bits) (b : Byte),
    ∃ x : BitVec w.bits, x.toNat = b.toNat * 2 ^ (derive d P).pack ∧
      bwByte (derive d P) r b = (bitStep (derive d P))^[8] (r ^^^ x)) ∧
  (∀ (w : Width) (c : EngineCfg w.bits) (r : BitVec w.bits) (b : Byte) (bytes : List Byte),
    inner8 c r = (bitStep c)^[8] r ∧ bwCompute c r [] = r ∧
    bwCompute c r (b :: bytes) = bwCompute c (bwByte c r b) bytes)

/-- R130: a bit step and the eight steps are linear over GF(2), and what the eight steps do to a register whose eight
bits under the mask's end are 0. -/
def Obligations.BitStepsAreLinear : Prop :=
  ∀ (w : Width) (d : Dir) (P x y : BitVec w.bits),
    bitStep (derive d P) (x ^^^ y) = bitStep (derive d P) x ^^^ bitStep (derive d P) y ∧
    inner8 (derive d P) (x ^^^ y) = inner8 (derive d P) x ^^^ inner8 (derive d P) y ∧
    inner8 (derive d P) 0 = 0 ∧
    (d = .msbFirst → x.toNat < 2 ^ (w.bits - 8) → inner8 (derive d P) x = shl x 8) ∧
    (d = .lsbFirst → x.toNat % 256 = 0 → inner8 (derive d P) x = shr x 8)

/-- R146: on one configuration the table engine and the bitwise engine compute the same CRC, for every width, direction,
polynomial, seed and byte sequence; and in a well-formed state whose engines have one configuration, `crc.bw` and
`crc.tb` do the same, whatever the operands, the memory and the draws. -/
def Obligations.TableEngineEqualsBitwiseEngine : Prop :=
  (∀ (w : Width) (d : Dir) (P seed : BitVec w.bits) (bytes : List Byte),
    tbCompute (derive d P) (buildTable (derive d P)) seed bytes = bwCompute (derive d P) seed bytes) ∧
  ∀ s : State, s.Wf → s.bw = s.tb → exec .crcTb s = exec .crcBw s

/-- R148: a constructed table engine's entry `i` is the bitwise CRC of the one byte `i` from seed 0; and with equal
engines `tblrd i` gives the RESULT `crc.bw` gives over that byte with seed 0. -/
def Obligations.TableEntryIsTheCrcOfItsIndex : Prop :=
  ∀ (s : State) (i : Fin 256), s.Wf → s.tb.valid = true →
    s.table[i] = bwCompute s.tb 0 [BitVec.ofNat 8 i.val] ∧
    (∀ (p : Pending s.params.W), s.pend = some p → s.BufferKept → s.bw = s.tb → p.val = 0 → p.len = 1 →
      p.addr.toNat < s.params.memBytes → Memory.read s.mem p.addr.toNat = BitVec.ofNat 8 i.val →
      ∃ t u : State, exec (.tblrd i) s = .next t ∧ exec .crcBw s = .next u ∧ t.result.toNat = u.result.toNat)

/-- R128, R129, R149, for both engines: no bytes give the seed, and a sequence in two parts gives what the second part
gives from the first's result. At the command level, for either engine, a `crc.*` over `m + n` bytes gives the RESULT of
one over the first `m`, whose RESULT is the seed of one over the `n` bytes that follow. -/
def Obligations.SeedChainingAcrossAdjacentRanges : Prop :=
  (∀ (w : Width) (c : EngineCfg w.bits) (T : Table w.bits) (seed : BitVec w.bits) (xs ys : List Byte),
    bwCompute c seed [] = seed ∧ tbCompute c T seed [] = seed ∧
    bwCompute c seed (xs ++ ys) = bwCompute c (bwCompute c seed xs) ys ∧
    tbCompute c T seed (xs ++ ys) = tbCompute c T (tbCompute c T seed xs) ys) ∧
  ∀ (s : State) (i : Instr) (word : CmdWord) (a m n : Nat) (seed : BitVec s.params.W),
    s.params.legal → (i = .crcBw ∧ s.bw.valid = true) ∨ (i = .crcTb ∧ s.tb.valid = true) →
    a + m + n ≤ s.params.memBytes → a < 2 ^ 64 → m + n < 2 ^ 64 →
    ∀ run : BitVec s.params.W → Nat → Nat → Result,
      (∀ v x l, run v x l = exec i (s.setPend (some
        { word := word, val := v, addr := BitVec.ofNat 64 x, len := BitVec.ofNat 64 l, held := [] }))) →
      ∃ (r₁ r₂ : BitVec s.params.W) (d₁ d₂ : Nat),
        run seed a m = .next { s with result := r₁, err := .none, pend := none, draws := d₁ } ∧
        run r₁ (a + m) n = .next { s with result := r₂, err := .none, pend := none, draws := d₂ } ∧
        run seed a (m + n) = .next { s with result := r₂, err := .none, pend := none, draws := s.draws + (m + n) }

/-- R150: there is no direction-sensitivity law: its two counterexamples. -/
def Obligations.DirectionsCanAgree : Prop :=
  (∀ (w : Width) (P : BitVec w.bits),
    bwCompute (derive .msbFirst P) 0 [0x00#8] = 0 ∧ bwCompute (derive .lsbFirst P) 0 [0x00#8] = 0) ∧
  bitReverse 0x07#8 = 0xE0#8 ∧
  bwCompute (derive .msbFirst 0x07#8) 0 [0x5A#8] = 0x81#8 ∧ bwCompute (derive .lsbFirst 0x07#8) 0 [0x5A#8] = 0x81#8

/-! ## Invariants and whole-machine rules -/

/-- The state after reset is well formed, for every legal block and for the block of `State.reset` (whose parameters and
table are the model's choices, log entries 1 and 5). -/
def Obligations.ResetIsWellFormed : Prop :=
  (∀ p : Params, p.legal → (State.resetOf p).Wf) ∧ State.reset.Wf

/-- Every step keeps the well-formed states: the memory's canonical form and extent (R38), each engine unconstructed or
derived (R30), a constructed table engine's table built from its configuration (R140, R141). -/
def Obligations.StepKeepsWellFormed : Prop :=
  ∀ s t : State, s.Wf → step s = .next t → t.Wf

/-- R6, R33: PARAM is W in bits 7:0 and 0 above, no host write changes anything there, and no step changes W, MEM_BYTES
or what PARAM reads. -/
def Obligations.ParametersNeverChange : Prop :=
  ∀ s : State, (s.regRead .param).toNat = s.params.W ∧ (∀ v : HostWord, s.regWrite .param v = s) ∧
    ∀ t : State, step s = .next t → t.params = s.params ∧ t.regRead .param = s.regRead .param

/-- R27, R35, R193: in one step an engine's configuration changes only when its own configure command completes or reset
is asserted, and the table only with the table engine's. While a command stays in flight nothing of them changes. -/
def Obligations.ConfigurationIsWrittenOnlyByConfigureAndReset : Prop :=
  ∀ s t : State, step s = .next t → s.turns.head? ≠ some .reset →
    ((t.busy = true ∨ ∀ (p : Pending s.params.W) (d : Dir), s.pend = some p → decode p.word ≠ .instr (.cfgBw d)) →
      HEq t.bw s.bw) ∧
    ((t.busy = true ∨ ∀ (p : Pending s.params.W) (d : Dir), s.pend = some p → decode p.word ≠ .instr (.cfgTb d)) →
      HEq t.tb s.tb ∧ HEq t.table s.table)

/-- R35 (I7): while the table engine is unconstructed nothing depends on the table: two states that differ only there
step alike, differ at most there afterwards, and agree there once it is constructed. -/
def Obligations.TableOfAnUnconstructedEngineCannotBeObserved : Prop :=
  ∀ (s : State) (T : Table s.params.W), s.tb.valid = false →
    (∀ t, step s = .next t → ∃ T', step { s with table := T } = .next { t with table := T' } ∧
      (t.tb.valid = true → T' = t.table)) ∧
    (∀ f, step s = .fault f → step { s with table := T } = .fault f)

/-! ## The assembler (`30_encoding.md` R78, R79) -/

/-- R78: a command line stands for one write to CMD of the word its table gives, and an IMM8 operand outside 0..255 is
refused. -/
def Obligations.AssemblerEncodesCommandLines : Prop :=
  assembleLine (.cfg .bw .msbFirst) = some [.write .cmd 0x00000001#64] ∧
  assembleLine (.cfg .bw .lsbFirst) = some [.write .cmd 0x00000021#64] ∧
  assembleLine (.cfg .tb .msbFirst) = some [.write .cmd 0x00000011#64] ∧
  assembleLine (.cfg .tb .lsbFirst) = some [.write .cmd 0x00000031#64] ∧
  assembleLine (.crc .bw) = some [.write .cmd 0x00000002#64] ∧
  assembleLine (.crc .tb) = some [.write .cmd 0x00000012#64] ∧
  assembleLine .rev = some [.write .cmd 0x00000003#64] ∧
  ∀ n : Nat,
    (n ≤ 255 → assembleLine (.shift .bw n) = some [.write .cmd (0x00000004#64 ||| BitVec.ofNat 64 (n * 256))] ∧
      assembleLine (.shift .tb n) = some [.write .cmd (0x00000014#64 ||| BitVec.ofNat 64 (n * 256))] ∧
      assembleLine (.tblrd n) = some [.write .cmd (0x00000005#64 ||| BitVec.ofNat 64 (n * 256))]) ∧
    (255 < n → assembleLine (.shift .bw n) = none ∧ assembleLine (.shift .tb n) = none ∧
      assembleLine (.tblrd n) = none)

/-- R79: `wait` reads STATUS while BUSY = 1 (that it is one entry of the host's program, polled once a turn, which stays
the host's next entry, is the model's choice, log entry 15); `chain` writes to VAL the value just read from RESULT. -/
def Obligations.WaitPollsAndChainCarriesTheResult : Prop :=
  (∀ s : State, s.hostDo .wait = .next { s with
    notes := .saw .status (s.regRead .status) :: s.notes,
    program := if s.busy then .wait :: s.program else s.program }) ∧
  (∀ s : State, assembleLine .chain = some [.read .result, .writeBack .val] ∧
    ∃ t : State, s.hostDo (.read .result) = .next t ∧ ∃ u : State, t.hostDo (.writeBack .val) = .next u ∧
      u.val.toNat = s.result.toNat)

/-- R79: the transactions each of the other pseudo-instructions stands for, in order. An IMM8 operand outside 0..255 is
refused (R78), and a value that does not fit the 64-bit transfer too (log entry 10, the model's choice). `wait` is the
one entry of log entry 15. -/
def Obligations.PseudoInstructionsExpandInOrder : Prop :=
  ∀ (e : Engine) (d : Dir) (v addr len n : Nat),
    (v < 2 ^ 64 →
      assembleLine (.cfgWith e d v) = some [.write .val (BitVec.ofNat 64 v),
        .write .cmd (match e, d with
          | .bw, .msbFirst => 0x00000001#64
          | .bw, .lsbFirst => 0x00000021#64
          | .tb, .msbFirst => 0x00000011#64
          | .tb, .lsbFirst => 0x00000031#64), .wait] ∧
      assembleLine (.revWith v) = some [.write .val (BitVec.ofNat 64 v), .write .cmd 0x00000003#64, .wait] ∧
      (addr < 2 ^ 64 → len < 2 ^ 64 →
        assembleLine (.crcWith e v addr len) = some [.write .val (BitVec.ofNat 64 v),
          .write .addr (BitVec.ofNat 64 addr), .write .len (BitVec.ofNat 64 len),
          .write .cmd (match e with
            | .bw => 0x00000002#64
            | .tb => 0x00000012#64), .wait]) ∧
      (n ≤ 255 →
        assembleLine (.shiftWith e v n) = some [.write .val (BitVec.ofNat 64 v),
          .write .cmd (match e with
            | .bw => 0x00000004#64 ||| BitVec.ofNat 64 (n * 256)
            | .tb => 0x00000014#64 ||| BitVec.ofNat 64 (n * 256)), .wait])) ∧
    (n ≤ 255 → assembleLine (.tblrdWait n) =
      some [.write .cmd (0x00000005#64 ||| BitVec.ofNat 64 (n * 256)), .wait]) ∧
    (255 < n → assembleLine (.shiftWith e v n) = none ∧ assembleLine (.tblrdWait n) = none) ∧
    (2 ^ 64 ≤ v → assembleLine (.cfgWith e d v) = none ∧ assembleLine (.revWith v) = none ∧
      assembleLine (.crcWith e v addr len) = none ∧ assembleLine (.shiftWith e v n) = none)
end

