-- ==== Sys2Proof/Laws/Decode.lean ====
section
/-! SUPPORT. The fields of a packed word, and what the decoder's search answers. -/

namespace Sys2Proof

/-! ## The six fields of a word (`30_encoding.md` R70) -/

/-- Two concatenations are equal exactly when their parts are. -/
theorem append_eq_append_iff {n m : Nat} {a a' : BitVec n} {b b' : BitVec m} :
    a ++ b = a' ++ b' ↔ a = a' ∧ b = b' := by
  constructor
  · intro h
    have key : ∀ j, (a ++ b).getLsbD j = (a' ++ b').getLsbD j := fun j => by rw [h]
    simp only [BitVec.getLsbD_append] at key
    constructor <;> apply BitVec.eq_of_getLsbD_eq <;> intro j hj
    · simpa using key (m + j)
    · simpa [hj] using key j
  · rintro ⟨rfl, rfl⟩
    rfl

/-- A word from all six fields of R70, the reserved ones too. -/
def joinFields (rsv1 : BitVec 16) (imm : BitVec 8) (rsv0 : BitVec 2) (dir eng : BitVec 1) (op : BitVec 4) : CmdWord :=
  rsv1 ++ imm ++ rsv0 ++ dir ++ eng ++ op

section Join

variable (a a' : BitVec 16) (b b' : BitVec 8) (c c' : BitVec 2) (d d' e e' : BitVec 1) (f f' : BitVec 4)

theorem joinFields_and :
    joinFields a b c d e f &&& joinFields a' b' c' d' e' f' =
      joinFields (a &&& a') (b &&& b') (c &&& c') (d &&& d') (e &&& e') (f &&& f') := by
  unfold joinFields
  iterate 5 rw [BitVec.and_append]

theorem joinFields_inj :
    joinFields a b c d e f = joinFields a' b' c' d' e' f' ↔
      a = a' ∧ b = b' ∧ c = c' ∧ d = d' ∧ e = e' ∧ f = f' := by
  unfold joinFields
  rw [append_eq_append_iff, append_eq_append_iff, append_eq_append_iff, append_eq_append_iff, append_eq_append_iff]
  simp only [and_assoc]

theorem joinFields_fields (w : CmdWord) :
    joinFields (rsv1Field w) (imm8Field w) (rsv0Field w) (dirField w) (engField w) (opField w) = w := by
  apply BitVec.eq_of_getLsbD_eq
  intro j hj
  simp only [joinFields, rsv1Field, imm8Field, rsv0Field, dirField, engField, opField, BitVec.getLsbD_append,
    BitVec.getLsbD_extractLsb']
  interval_cases j <;> simp

/-- The fields of a joined word. -/
theorem fields_joinFields :
    rsv1Field (joinFields a b c d e f) = a ∧ imm8Field (joinFields a b c d e f) = b ∧
      rsv0Field (joinFields a b c d e f) = c ∧ dirField (joinFields a b c d e f) = d ∧
      engField (joinFields a b c d e f) = e ∧ opField (joinFields a b c d e f) = f :=
  (joinFields_inj _ _ _ _ _ _ _ _ _ _ _ _).1 (joinFields_fields _)

end Join

/-! ## The fields of a packed word (R70) -/

section Packed

variable (op : BitVec 4) (eng dir : BitVec 1) (imm : BitVec 8)

theorem packWord_eq : packWord op eng dir imm = joinFields 0#16 imm 0#2 dir eng op := rfl

@[simp] theorem rsv1Field_packWord : rsv1Field (packWord op eng dir imm) = 0#16 :=
  (fields_joinFields _ _ _ _ _ _).1

@[simp] theorem imm8Field_packWord : imm8Field (packWord op eng dir imm) = imm :=
  (fields_joinFields _ _ _ _ _ _).2.1

@[simp] theorem rsv0Field_packWord : rsv0Field (packWord op eng dir imm) = 0#2 :=
  (fields_joinFields _ _ _ _ _ _).2.2.1

@[simp] theorem dirField_packWord : dirField (packWord op eng dir imm) = dir :=
  (fields_joinFields _ _ _ _ _ _).2.2.2.1

@[simp] theorem engField_packWord : engField (packWord op eng dir imm) = eng :=
  (fields_joinFields _ _ _ _ _ _).2.2.2.2.1

@[simp] theorem opField_packWord : opField (packWord op eng dir imm) = op :=
  (fields_joinFields _ _ _ _ _ _).2.2.2.2.2

end Packed

@[simp] theorem Dir.ofBit_bit (d : Dir) : Dir.ofBit d.bit = d := by cases d <;> rfl

@[simp] theorem Dir.bit_ofBit (b : BitVec 1) : (Dir.ofBit b).bit = b := by
  revert b
  decide

/-! ## The rows by their fields (R74) -/

/-- OP of a row (R74). -/
def Row.op : Row → BitVec 4
  | .cfgBw | .cfgTb => 1#4
  | .crcBw | .crcTb => 2#4
  | .rev => 3#4
  | .shiftBw | .shiftTb => 4#4
  | .tblrd => 5#4

/-- ENG of a row (R74). -/
def Row.eng : Row → BitVec 1
  | .cfgTb | .crcTb | .shiftTb => 1#1
  | .cfgBw | .crcBw | .rev | .shiftBw | .tblrd => 0#1

/-- A row takes any DIR (R74: `d`). -/
def Row.anyDir : Row → Bool
  | .cfgBw | .cfgTb => true
  | .crcBw | .crcTb | .rev | .shiftBw | .shiftTb | .tblrd => false

/-- A row takes any IMM8 (R74: count, index). -/
def Row.anyImm : Row → Bool
  | .shiftBw | .shiftTb | .tblrd => true
  | .cfgBw | .cfgTb | .crcBw | .crcTb | .rev => false

theorem Row.pattern_eq (r : Row) : r.pattern = joinFields 0#16 0#8 0#2 0#1 r.eng r.op := by
  cases r <;> rfl

theorem Row.mask_eq (r : Row) :
    r.mask = joinFields (BitVec.allOnes 16) (if r.anyImm then 0#8 else BitVec.allOnes 8) (BitVec.allOnes 2)
      (if r.anyDir then 0#1 else BitVec.allOnes 1) (BitVec.allOnes 1) (BitVec.allOnes 4) := by
  cases r <;> rfl

/-- A row matches a word exactly when the word's fields are as the row of R74 says. -/
theorem Row.hits_iff (r : Row) (w : CmdWord) :
    r.hits w = true ↔
      rsv1Field w = 0#16 ∧ (r.anyImm = false → imm8Field w = 0#8) ∧ rsv0Field w = 0#2 ∧
        (r.anyDir = false → dirField w = 0#1) ∧ engField w = r.eng ∧ opField w = r.op := by
  conv_lhs => rw [← joinFields_fields w]
  rw [Row.hits, beq_iff_eq, Row.mask_eq, Row.pattern_eq, joinFields_and, joinFields_inj]
  cases r <;> simp [-BitVec.reduceAllOnes, Row.anyImm, Row.anyDir]

/-! ## The decoder's search (R75) -/

theorem decode_of_find {w : CmdWord} {r : Row} (h : Row.all.find? (fun r => r.hits w) = some r) :
    decode w = .instr (r.instr w) := by
  simp [decode, h]

/-- Decoding is by a row that matches, or the word is illegal and no row does. -/
theorem decode_cases (w : CmdWord) :
    (∃ r, Row.hits r w = true ∧ decode w = .instr (r.instr w)) ∨
      ((∀ r, Row.hits r w = false) ∧ decode w = .illegal (whyIllegal w)) := by
  cases h : Row.all.find? fun r => r.hits w with
  | some r => exact .inl ⟨r, by simpa using List.find?_some h, decode_of_find h⟩
  | none =>
    refine .inr ⟨fun r => ?_, by simp [decode, h]⟩
    have := List.find?_eq_none.1 h r (by cases r <;> simp [Row.all])
    simpa using this

end Sys2Proof
end

