-- ==== Sys2Proof/Laws/Memory.lean ====
section
/-! SUPPORT. The laws of data memory: a read after a write, the canonical form, and that canonical memories with equal
bytes are equal. -/

namespace Sys2Proof.Machine

@[simp] theorem Memory.wf_nil : Memory.wf [] = true := rfl

theorem Memory.wf_cons {c : Host.Cell} {m : Memory} :
    Memory.wf (c :: m) = true ↔ c.2 ≠ Config.background ∧ (∀ d ∈ m, c.1 < d.1) ∧ Memory.wf m = true := by
  simp [Memory.wf, and_assoc]

/-- An address below every listed one reads as the background. -/
theorem Memory.read_of_lt {m : Memory} {a : Nat} (h : ∀ c ∈ m, a < c.1) : Memory.read m a = Config.background := by
  induction m with
  | nil => rfl
  | cons c m ih =>
    have hc : a < c.1 := h c (by simp)
    simp [Memory.read, Nat.ne_of_gt hc, ih fun d hd => h d (by simp [hd])]

theorem Memory.read_write_same {m : Memory} (a : Nat) (b : Byte) (h : Memory.wf m = true) :
    Memory.read (Memory.write m a b) a = b := by
  induction m with
  | nil => by_cases hb : b = Config.background <;> simp [Memory.write, Memory.read, hb]
  | cons c m ih =>
    obtain ⟨-, hlt, hm⟩ := Memory.wf_cons.1 h
    rcases Nat.lt_trichotomy a c.1 with h1 | h1 | h1
    · by_cases hb : b = Config.background
      · have : Memory.read (c :: m) a = Config.background :=
          Memory.read_of_lt (by simpa using ⟨h1, fun x y hx => h1.trans (hlt _ hx)⟩)
        simp [Memory.write, h1, hb, this]
      · simp [Memory.write, h1, hb, Memory.read]
    · subst h1
      by_cases hb : b = Config.background
      · simp [Memory.write, hb, Memory.read_of_lt hlt]
      · simp [Memory.write, hb, Memory.read]
    · simp [Memory.write, Memory.read, Nat.not_lt_of_gt h1, Nat.ne_of_lt h1, ih hm]

theorem Memory.read_write_other {m : Memory} {a a' : Nat} (b : Byte) (h : Memory.wf m = true) (ha : a' ≠ a) :
    Memory.read (Memory.write m a b) a' = Memory.read m a' := by
  induction m with
  | nil => by_cases hb : b = Config.background <;> simp [Memory.write, Memory.read, hb, ha.symm]
  | cons c m ih =>
    obtain ⟨-, -, hm⟩ := Memory.wf_cons.1 h
    rcases Nat.lt_trichotomy a c.1 with h1 | h1 | h1
    · by_cases hb : b = Config.background <;> simp [Memory.write, h1, hb, Memory.read, ha.symm]
    · subst h1
      by_cases hb : b = Config.background <;> simp [Memory.write, hb, Memory.read, ha.symm]
    · simp [Memory.write, Memory.read, Nat.not_lt_of_gt h1, Nat.ne_of_lt h1, ih hm]

/-- What a write can list: the written cell and the cells listed before. -/
theorem Memory.mem_write {m : Memory} {a : Nat} {b : Byte} {c : Host.Cell} (h : c ∈ Memory.write m a b) :
    c = (a, b) ∨ c ∈ m := by
  induction m with
  | nil =>
    by_cases hb : b = Config.background
    · simp [Memory.write, hb] at h
    · simpa [Memory.write, hb] using h
  | cons d m ih =>
    unfold Memory.write at h
    split at h
    · split at h
      · exact .inr h
      · simpa using h
    · split at h
      · split at h
        · exact .inr (by simp [h])
        · rcases List.mem_cons.1 h with h | h
          · exact .inl h
          · exact .inr (by simp [h])
      · rcases List.mem_cons.1 h with h | h
        · exact .inr (by simp [h])
        · rcases ih h with h | h
          · exact .inl h
          · exact .inr (by simp [h])

/-- A write keeps the canonical form. -/
theorem Memory.wf_write {m : Memory} (a : Nat) (b : Byte) (h : Memory.wf m = true) :
    Memory.wf (Memory.write m a b) = true := by
  induction m with
  | nil =>
    by_cases hb : b = Config.background
    · simp [Memory.write, hb]
    · simp [Memory.write, hb, Memory.wf]
  | cons c m ih =>
    obtain ⟨hc, hlt, hm⟩ := Memory.wf_cons.1 h
    rcases Nat.lt_trichotomy a c.1 with h1 | h1 | h1
    · by_cases hb : b = Config.background
      · simpa [Memory.write, h1, hb] using h
      · simpa [Memory.write, h1, hb] using
          Memory.wf_cons.2 ⟨hb, by simpa using ⟨h1, fun x y hx => h1.trans (hlt _ hx)⟩, h⟩
    · subst h1
      by_cases hb : b = Config.background
      · simpa [Memory.write, hb] using hm
      · simpa [Memory.write, hb] using Memory.wf_cons.2 ⟨hb, by simpa using fun x y hx => hlt _ hx, hm⟩
    · have : Memory.write (c :: m) a b = c :: Memory.write m a b := by
        simp [Memory.write, Nat.not_lt_of_gt h1, Nat.ne_of_lt h1]
      rw [this, Memory.wf_cons]
      refine ⟨hc, fun d hd => ?_, ih hm⟩
      rcases Memory.mem_write hd with rfl | hd
      · exact h1
      · exact hlt d hd

/-- Canonical memories that read alike are the same list. -/
theorem Memory.ext_of_read {m n : Memory} (hm : Memory.wf m = true) (hn : Memory.wf n = true)
    (h : ∀ a, Memory.read m a = Memory.read n a) : m = n := by
  induction m generalizing n with
  | nil =>
    cases n with
    | nil => rfl
    | cons d n =>
      have hd := (Memory.wf_cons.1 hn).1
      have := h d.1
      simp [Memory.read] at this
      exact absurd this.symm hd
  | cons c m ih =>
    obtain ⟨hc, hclt, hm'⟩ := Memory.wf_cons.1 hm
    cases n with
    | nil =>
      have := h c.1
      simp [Memory.read] at this
      exact absurd this hc
    | cons d n =>
      obtain ⟨hd, hdlt, hn'⟩ := Memory.wf_cons.1 hn
      have hcd : c.1 = d.1 := by
        rcases Nat.lt_trichotomy c.1 d.1 with h1 | h1 | h1
        · have h2 : Memory.read (d :: n) c.1 = Config.background :=
            Memory.read_of_lt (by simpa using ⟨h1, fun x y hx => h1.trans (hdlt _ hx)⟩)
          have h3 := h c.1
          rw [h2] at h3
          simp [Memory.read] at h3
          exact absurd h3 hc
        · exact h1
        · have h2 : Memory.read (c :: m) d.1 = Config.background :=
            Memory.read_of_lt (by simpa using ⟨h1, fun x y hx => h1.trans (hclt _ hx)⟩)
          have h3 := h d.1
          rw [h2] at h3
          simp [Memory.read] at h3
          exact absurd h3.symm hd
      have hv : c.2 = d.2 := by
        have := h c.1
        simpa [Memory.read, hcd] using this
      have hcd' : c = d := Prod.ext hcd hv
      subst hcd'
      congr 1
      refine ih hm' hn' fun a => ?_
      by_cases ha : c.1 = a
      · subst ha
        rw [Memory.read_of_lt hclt, Memory.read_of_lt hdlt]
      · simpa [Memory.read, ha] using h a

end Sys2Proof.Machine
end

