-- ==== Sys2Proof/Laws/State.lean ====
section
/-! SUPPORT. One lemma per field per update of the state: no proof unfolds a record update. -/

namespace Sys2Proof.Machine

variable (s : State)

/-! ## setVal -/

@[simp] theorem State.setVal_params (v : BitVec s.params.W) : (s.setVal v).params = s.params := rfl
@[simp] theorem State.setVal_val (v : BitVec s.params.W) : (s.setVal v).val = v := rfl
@[simp] theorem State.setVal_addr (v : BitVec s.params.W) : (s.setVal v).addr = s.addr := rfl
@[simp] theorem State.setVal_len (v : BitVec s.params.W) : (s.setVal v).len = s.len := rfl
@[simp] theorem State.setVal_result (v : BitVec s.params.W) : (s.setVal v).result = s.result := rfl
@[simp] theorem State.setVal_err (v : BitVec s.params.W) : (s.setVal v).err = s.err := rfl
@[simp] theorem State.setVal_ovr (v : BitVec s.params.W) : (s.setVal v).ovr = s.ovr := rfl
@[simp] theorem State.setVal_bw (v : BitVec s.params.W) : (s.setVal v).bw = s.bw := rfl
@[simp] theorem State.setVal_tb (v : BitVec s.params.W) : (s.setVal v).tb = s.tb := rfl
@[simp] theorem State.setVal_table (v : BitVec s.params.W) : (s.setVal v).table = s.table := rfl
@[simp] theorem State.setVal_pend (v : BitVec s.params.W) : (s.setVal v).pend = s.pend := rfl
@[simp] theorem State.setVal_mem (v : BitVec s.params.W) : (s.setVal v).mem = s.mem := rfl
@[simp] theorem State.setVal_program (v : BitVec s.params.W) : (s.setVal v).program = s.program := rfl
@[simp] theorem State.setVal_turns (v : BitVec s.params.W) : (s.setVal v).turns = s.turns := rfl
@[simp] theorem State.setVal_notes (v : BitVec s.params.W) : (s.setVal v).notes = s.notes := rfl
@[simp] theorem State.setVal_draws (v : BitVec s.params.W) : (s.setVal v).draws = s.draws := rfl

/-! ## setAddr -/

@[simp] theorem State.setAddr_params (v : BitVec 64) : (s.setAddr v).params = s.params := rfl
@[simp] theorem State.setAddr_val (v : BitVec 64) : (s.setAddr v).val = s.val := rfl
@[simp] theorem State.setAddr_addr (v : BitVec 64) : (s.setAddr v).addr = v := rfl
@[simp] theorem State.setAddr_len (v : BitVec 64) : (s.setAddr v).len = s.len := rfl
@[simp] theorem State.setAddr_result (v : BitVec 64) : (s.setAddr v).result = s.result := rfl
@[simp] theorem State.setAddr_err (v : BitVec 64) : (s.setAddr v).err = s.err := rfl
@[simp] theorem State.setAddr_ovr (v : BitVec 64) : (s.setAddr v).ovr = s.ovr := rfl
@[simp] theorem State.setAddr_bw (v : BitVec 64) : (s.setAddr v).bw = s.bw := rfl
@[simp] theorem State.setAddr_tb (v : BitVec 64) : (s.setAddr v).tb = s.tb := rfl
@[simp] theorem State.setAddr_table (v : BitVec 64) : (s.setAddr v).table = s.table := rfl
@[simp] theorem State.setAddr_pend (v : BitVec 64) : (s.setAddr v).pend = s.pend := rfl
@[simp] theorem State.setAddr_mem (v : BitVec 64) : (s.setAddr v).mem = s.mem := rfl
@[simp] theorem State.setAddr_program (v : BitVec 64) : (s.setAddr v).program = s.program := rfl
@[simp] theorem State.setAddr_turns (v : BitVec 64) : (s.setAddr v).turns = s.turns := rfl
@[simp] theorem State.setAddr_notes (v : BitVec 64) : (s.setAddr v).notes = s.notes := rfl
@[simp] theorem State.setAddr_draws (v : BitVec 64) : (s.setAddr v).draws = s.draws := rfl

/-! ## setLen -/

@[simp] theorem State.setLen_params (v : BitVec 64) : (s.setLen v).params = s.params := rfl
@[simp] theorem State.setLen_val (v : BitVec 64) : (s.setLen v).val = s.val := rfl
@[simp] theorem State.setLen_addr (v : BitVec 64) : (s.setLen v).addr = s.addr := rfl
@[simp] theorem State.setLen_len (v : BitVec 64) : (s.setLen v).len = v := rfl
@[simp] theorem State.setLen_result (v : BitVec 64) : (s.setLen v).result = s.result := rfl
@[simp] theorem State.setLen_err (v : BitVec 64) : (s.setLen v).err = s.err := rfl
@[simp] theorem State.setLen_ovr (v : BitVec 64) : (s.setLen v).ovr = s.ovr := rfl
@[simp] theorem State.setLen_bw (v : BitVec 64) : (s.setLen v).bw = s.bw := rfl
@[simp] theorem State.setLen_tb (v : BitVec 64) : (s.setLen v).tb = s.tb := rfl
@[simp] theorem State.setLen_table (v : BitVec 64) : (s.setLen v).table = s.table := rfl
@[simp] theorem State.setLen_pend (v : BitVec 64) : (s.setLen v).pend = s.pend := rfl
@[simp] theorem State.setLen_mem (v : BitVec 64) : (s.setLen v).mem = s.mem := rfl
@[simp] theorem State.setLen_program (v : BitVec 64) : (s.setLen v).program = s.program := rfl
@[simp] theorem State.setLen_turns (v : BitVec 64) : (s.setLen v).turns = s.turns := rfl
@[simp] theorem State.setLen_notes (v : BitVec 64) : (s.setLen v).notes = s.notes := rfl
@[simp] theorem State.setLen_draws (v : BitVec 64) : (s.setLen v).draws = s.draws := rfl

/-! ## setResult -/

@[simp] theorem State.setResult_params (v : BitVec s.params.W) : (s.setResult v).params = s.params := rfl
@[simp] theorem State.setResult_val (v : BitVec s.params.W) : (s.setResult v).val = s.val := rfl
@[simp] theorem State.setResult_addr (v : BitVec s.params.W) : (s.setResult v).addr = s.addr := rfl
@[simp] theorem State.setResult_len (v : BitVec s.params.W) : (s.setResult v).len = s.len := rfl
@[simp] theorem State.setResult_result (v : BitVec s.params.W) : (s.setResult v).result = v := rfl
@[simp] theorem State.setResult_err (v : BitVec s.params.W) : (s.setResult v).err = s.err := rfl
@[simp] theorem State.setResult_ovr (v : BitVec s.params.W) : (s.setResult v).ovr = s.ovr := rfl
@[simp] theorem State.setResult_bw (v : BitVec s.params.W) : (s.setResult v).bw = s.bw := rfl
@[simp] theorem State.setResult_tb (v : BitVec s.params.W) : (s.setResult v).tb = s.tb := rfl
@[simp] theorem State.setResult_table (v : BitVec s.params.W) : (s.setResult v).table = s.table := rfl
@[simp] theorem State.setResult_pend (v : BitVec s.params.W) : (s.setResult v).pend = s.pend := rfl
@[simp] theorem State.setResult_mem (v : BitVec s.params.W) : (s.setResult v).mem = s.mem := rfl
@[simp] theorem State.setResult_program (v : BitVec s.params.W) : (s.setResult v).program = s.program := rfl
@[simp] theorem State.setResult_turns (v : BitVec s.params.W) : (s.setResult v).turns = s.turns := rfl
@[simp] theorem State.setResult_notes (v : BitVec s.params.W) : (s.setResult v).notes = s.notes := rfl
@[simp] theorem State.setResult_draws (v : BitVec s.params.W) : (s.setResult v).draws = s.draws := rfl

/-! ## setErr -/

@[simp] theorem State.setErr_params (e : ErrCode) : (s.setErr e).params = s.params := rfl
@[simp] theorem State.setErr_val (e : ErrCode) : (s.setErr e).val = s.val := rfl
@[simp] theorem State.setErr_addr (e : ErrCode) : (s.setErr e).addr = s.addr := rfl
@[simp] theorem State.setErr_len (e : ErrCode) : (s.setErr e).len = s.len := rfl
@[simp] theorem State.setErr_result (e : ErrCode) : (s.setErr e).result = s.result := rfl
@[simp] theorem State.setErr_err (e : ErrCode) : (s.setErr e).err = e := rfl
@[simp] theorem State.setErr_ovr (e : ErrCode) : (s.setErr e).ovr = s.ovr := rfl
@[simp] theorem State.setErr_bw (e : ErrCode) : (s.setErr e).bw = s.bw := rfl
@[simp] theorem State.setErr_tb (e : ErrCode) : (s.setErr e).tb = s.tb := rfl
@[simp] theorem State.setErr_table (e : ErrCode) : (s.setErr e).table = s.table := rfl
@[simp] theorem State.setErr_pend (e : ErrCode) : (s.setErr e).pend = s.pend := rfl
@[simp] theorem State.setErr_mem (e : ErrCode) : (s.setErr e).mem = s.mem := rfl
@[simp] theorem State.setErr_program (e : ErrCode) : (s.setErr e).program = s.program := rfl
@[simp] theorem State.setErr_turns (e : ErrCode) : (s.setErr e).turns = s.turns := rfl
@[simp] theorem State.setErr_notes (e : ErrCode) : (s.setErr e).notes = s.notes := rfl
@[simp] theorem State.setErr_draws (e : ErrCode) : (s.setErr e).draws = s.draws := rfl

/-! ## setOvr -/

@[simp] theorem State.setOvr_params (b : Bool) : (s.setOvr b).params = s.params := rfl
@[simp] theorem State.setOvr_val (b : Bool) : (s.setOvr b).val = s.val := rfl
@[simp] theorem State.setOvr_addr (b : Bool) : (s.setOvr b).addr = s.addr := rfl
@[simp] theorem State.setOvr_len (b : Bool) : (s.setOvr b).len = s.len := rfl
@[simp] theorem State.setOvr_result (b : Bool) : (s.setOvr b).result = s.result := rfl
@[simp] theorem State.setOvr_err (b : Bool) : (s.setOvr b).err = s.err := rfl
@[simp] theorem State.setOvr_ovr (b : Bool) : (s.setOvr b).ovr = b := rfl
@[simp] theorem State.setOvr_bw (b : Bool) : (s.setOvr b).bw = s.bw := rfl
@[simp] theorem State.setOvr_tb (b : Bool) : (s.setOvr b).tb = s.tb := rfl
@[simp] theorem State.setOvr_table (b : Bool) : (s.setOvr b).table = s.table := rfl
@[simp] theorem State.setOvr_pend (b : Bool) : (s.setOvr b).pend = s.pend := rfl
@[simp] theorem State.setOvr_mem (b : Bool) : (s.setOvr b).mem = s.mem := rfl
@[simp] theorem State.setOvr_program (b : Bool) : (s.setOvr b).program = s.program := rfl
@[simp] theorem State.setOvr_turns (b : Bool) : (s.setOvr b).turns = s.turns := rfl
@[simp] theorem State.setOvr_notes (b : Bool) : (s.setOvr b).notes = s.notes := rfl
@[simp] theorem State.setOvr_draws (b : Bool) : (s.setOvr b).draws = s.draws := rfl

/-! ## setBw -/

@[simp] theorem State.setBw_params (c : EngineCfg s.params.W) : (s.setBw c).params = s.params := rfl
@[simp] theorem State.setBw_val (c : EngineCfg s.params.W) : (s.setBw c).val = s.val := rfl
@[simp] theorem State.setBw_addr (c : EngineCfg s.params.W) : (s.setBw c).addr = s.addr := rfl
@[simp] theorem State.setBw_len (c : EngineCfg s.params.W) : (s.setBw c).len = s.len := rfl
@[simp] theorem State.setBw_result (c : EngineCfg s.params.W) : (s.setBw c).result = s.result := rfl
@[simp] theorem State.setBw_err (c : EngineCfg s.params.W) : (s.setBw c).err = s.err := rfl
@[simp] theorem State.setBw_ovr (c : EngineCfg s.params.W) : (s.setBw c).ovr = s.ovr := rfl
@[simp] theorem State.setBw_bw (c : EngineCfg s.params.W) : (s.setBw c).bw = c := rfl
@[simp] theorem State.setBw_tb (c : EngineCfg s.params.W) : (s.setBw c).tb = s.tb := rfl
@[simp] theorem State.setBw_table (c : EngineCfg s.params.W) : (s.setBw c).table = s.table := rfl
@[simp] theorem State.setBw_pend (c : EngineCfg s.params.W) : (s.setBw c).pend = s.pend := rfl
@[simp] theorem State.setBw_mem (c : EngineCfg s.params.W) : (s.setBw c).mem = s.mem := rfl
@[simp] theorem State.setBw_program (c : EngineCfg s.params.W) : (s.setBw c).program = s.program := rfl
@[simp] theorem State.setBw_turns (c : EngineCfg s.params.W) : (s.setBw c).turns = s.turns := rfl
@[simp] theorem State.setBw_notes (c : EngineCfg s.params.W) : (s.setBw c).notes = s.notes := rfl
@[simp] theorem State.setBw_draws (c : EngineCfg s.params.W) : (s.setBw c).draws = s.draws := rfl

/-! ## setTb -/

@[simp] theorem State.setTb_params (c : EngineCfg s.params.W) : (s.setTb c).params = s.params := rfl
@[simp] theorem State.setTb_val (c : EngineCfg s.params.W) : (s.setTb c).val = s.val := rfl
@[simp] theorem State.setTb_addr (c : EngineCfg s.params.W) : (s.setTb c).addr = s.addr := rfl
@[simp] theorem State.setTb_len (c : EngineCfg s.params.W) : (s.setTb c).len = s.len := rfl
@[simp] theorem State.setTb_result (c : EngineCfg s.params.W) : (s.setTb c).result = s.result := rfl
@[simp] theorem State.setTb_err (c : EngineCfg s.params.W) : (s.setTb c).err = s.err := rfl
@[simp] theorem State.setTb_ovr (c : EngineCfg s.params.W) : (s.setTb c).ovr = s.ovr := rfl
@[simp] theorem State.setTb_bw (c : EngineCfg s.params.W) : (s.setTb c).bw = s.bw := rfl
@[simp] theorem State.setTb_tb (c : EngineCfg s.params.W) : (s.setTb c).tb = c := rfl
@[simp] theorem State.setTb_table (c : EngineCfg s.params.W) : (s.setTb c).table = s.table := rfl
@[simp] theorem State.setTb_pend (c : EngineCfg s.params.W) : (s.setTb c).pend = s.pend := rfl
@[simp] theorem State.setTb_mem (c : EngineCfg s.params.W) : (s.setTb c).mem = s.mem := rfl
@[simp] theorem State.setTb_program (c : EngineCfg s.params.W) : (s.setTb c).program = s.program := rfl
@[simp] theorem State.setTb_turns (c : EngineCfg s.params.W) : (s.setTb c).turns = s.turns := rfl
@[simp] theorem State.setTb_notes (c : EngineCfg s.params.W) : (s.setTb c).notes = s.notes := rfl
@[simp] theorem State.setTb_draws (c : EngineCfg s.params.W) : (s.setTb c).draws = s.draws := rfl

/-! ## setTable -/

@[simp] theorem State.setTable_params (t : Table s.params.W) : (s.setTable t).params = s.params := rfl
@[simp] theorem State.setTable_val (t : Table s.params.W) : (s.setTable t).val = s.val := rfl
@[simp] theorem State.setTable_addr (t : Table s.params.W) : (s.setTable t).addr = s.addr := rfl
@[simp] theorem State.setTable_len (t : Table s.params.W) : (s.setTable t).len = s.len := rfl
@[simp] theorem State.setTable_result (t : Table s.params.W) : (s.setTable t).result = s.result := rfl
@[simp] theorem State.setTable_err (t : Table s.params.W) : (s.setTable t).err = s.err := rfl
@[simp] theorem State.setTable_ovr (t : Table s.params.W) : (s.setTable t).ovr = s.ovr := rfl
@[simp] theorem State.setTable_bw (t : Table s.params.W) : (s.setTable t).bw = s.bw := rfl
@[simp] theorem State.setTable_tb (t : Table s.params.W) : (s.setTable t).tb = s.tb := rfl
@[simp] theorem State.setTable_table (t : Table s.params.W) : (s.setTable t).table = t := rfl
@[simp] theorem State.setTable_pend (t : Table s.params.W) : (s.setTable t).pend = s.pend := rfl
@[simp] theorem State.setTable_mem (t : Table s.params.W) : (s.setTable t).mem = s.mem := rfl
@[simp] theorem State.setTable_program (t : Table s.params.W) : (s.setTable t).program = s.program := rfl
@[simp] theorem State.setTable_turns (t : Table s.params.W) : (s.setTable t).turns = s.turns := rfl
@[simp] theorem State.setTable_notes (t : Table s.params.W) : (s.setTable t).notes = s.notes := rfl
@[simp] theorem State.setTable_draws (t : Table s.params.W) : (s.setTable t).draws = s.draws := rfl

/-! ## setPend -/

@[simp] theorem State.setPend_params (p : Option (Pending s.params.W)) : (s.setPend p).params = s.params := rfl
@[simp] theorem State.setPend_val (p : Option (Pending s.params.W)) : (s.setPend p).val = s.val := rfl
@[simp] theorem State.setPend_addr (p : Option (Pending s.params.W)) : (s.setPend p).addr = s.addr := rfl
@[simp] theorem State.setPend_len (p : Option (Pending s.params.W)) : (s.setPend p).len = s.len := rfl
@[simp] theorem State.setPend_result (p : Option (Pending s.params.W)) : (s.setPend p).result = s.result := rfl
@[simp] theorem State.setPend_err (p : Option (Pending s.params.W)) : (s.setPend p).err = s.err := rfl
@[simp] theorem State.setPend_ovr (p : Option (Pending s.params.W)) : (s.setPend p).ovr = s.ovr := rfl
@[simp] theorem State.setPend_bw (p : Option (Pending s.params.W)) : (s.setPend p).bw = s.bw := rfl
@[simp] theorem State.setPend_tb (p : Option (Pending s.params.W)) : (s.setPend p).tb = s.tb := rfl
@[simp] theorem State.setPend_table (p : Option (Pending s.params.W)) : (s.setPend p).table = s.table := rfl
@[simp] theorem State.setPend_pend (p : Option (Pending s.params.W)) : (s.setPend p).pend = p := rfl
@[simp] theorem State.setPend_mem (p : Option (Pending s.params.W)) : (s.setPend p).mem = s.mem := rfl
@[simp] theorem State.setPend_program (p : Option (Pending s.params.W)) : (s.setPend p).program = s.program := rfl
@[simp] theorem State.setPend_turns (p : Option (Pending s.params.W)) : (s.setPend p).turns = s.turns := rfl
@[simp] theorem State.setPend_notes (p : Option (Pending s.params.W)) : (s.setPend p).notes = s.notes := rfl
@[simp] theorem State.setPend_draws (p : Option (Pending s.params.W)) : (s.setPend p).draws = s.draws := rfl

/-! ## setMem -/

@[simp] theorem State.setMem_params (m : Memory) : (s.setMem m).params = s.params := rfl
@[simp] theorem State.setMem_val (m : Memory) : (s.setMem m).val = s.val := rfl
@[simp] theorem State.setMem_addr (m : Memory) : (s.setMem m).addr = s.addr := rfl
@[simp] theorem State.setMem_len (m : Memory) : (s.setMem m).len = s.len := rfl
@[simp] theorem State.setMem_result (m : Memory) : (s.setMem m).result = s.result := rfl
@[simp] theorem State.setMem_err (m : Memory) : (s.setMem m).err = s.err := rfl
@[simp] theorem State.setMem_ovr (m : Memory) : (s.setMem m).ovr = s.ovr := rfl
@[simp] theorem State.setMem_bw (m : Memory) : (s.setMem m).bw = s.bw := rfl
@[simp] theorem State.setMem_tb (m : Memory) : (s.setMem m).tb = s.tb := rfl
@[simp] theorem State.setMem_table (m : Memory) : (s.setMem m).table = s.table := rfl
@[simp] theorem State.setMem_pend (m : Memory) : (s.setMem m).pend = s.pend := rfl
@[simp] theorem State.setMem_mem (m : Memory) : (s.setMem m).mem = m := rfl
@[simp] theorem State.setMem_program (m : Memory) : (s.setMem m).program = s.program := rfl
@[simp] theorem State.setMem_turns (m : Memory) : (s.setMem m).turns = s.turns := rfl
@[simp] theorem State.setMem_notes (m : Memory) : (s.setMem m).notes = s.notes := rfl
@[simp] theorem State.setMem_draws (m : Memory) : (s.setMem m).draws = s.draws := rfl

/-! ## setProgram -/

@[simp] theorem State.setProgram_params (l : List HostAction) : (s.setProgram l).params = s.params := rfl
@[simp] theorem State.setProgram_val (l : List HostAction) : (s.setProgram l).val = s.val := rfl
@[simp] theorem State.setProgram_addr (l : List HostAction) : (s.setProgram l).addr = s.addr := rfl
@[simp] theorem State.setProgram_len (l : List HostAction) : (s.setProgram l).len = s.len := rfl
@[simp] theorem State.setProgram_result (l : List HostAction) : (s.setProgram l).result = s.result := rfl
@[simp] theorem State.setProgram_err (l : List HostAction) : (s.setProgram l).err = s.err := rfl
@[simp] theorem State.setProgram_ovr (l : List HostAction) : (s.setProgram l).ovr = s.ovr := rfl
@[simp] theorem State.setProgram_bw (l : List HostAction) : (s.setProgram l).bw = s.bw := rfl
@[simp] theorem State.setProgram_tb (l : List HostAction) : (s.setProgram l).tb = s.tb := rfl
@[simp] theorem State.setProgram_table (l : List HostAction) : (s.setProgram l).table = s.table := rfl
@[simp] theorem State.setProgram_pend (l : List HostAction) : (s.setProgram l).pend = s.pend := rfl
@[simp] theorem State.setProgram_mem (l : List HostAction) : (s.setProgram l).mem = s.mem := rfl
@[simp] theorem State.setProgram_program (l : List HostAction) : (s.setProgram l).program = l := rfl
@[simp] theorem State.setProgram_turns (l : List HostAction) : (s.setProgram l).turns = s.turns := rfl
@[simp] theorem State.setProgram_notes (l : List HostAction) : (s.setProgram l).notes = s.notes := rfl
@[simp] theorem State.setProgram_draws (l : List HostAction) : (s.setProgram l).draws = s.draws := rfl

/-! ## setTurns -/

@[simp] theorem State.setTurns_params (l : List Turn) : (s.setTurns l).params = s.params := rfl
@[simp] theorem State.setTurns_val (l : List Turn) : (s.setTurns l).val = s.val := rfl
@[simp] theorem State.setTurns_addr (l : List Turn) : (s.setTurns l).addr = s.addr := rfl
@[simp] theorem State.setTurns_len (l : List Turn) : (s.setTurns l).len = s.len := rfl
@[simp] theorem State.setTurns_result (l : List Turn) : (s.setTurns l).result = s.result := rfl
@[simp] theorem State.setTurns_err (l : List Turn) : (s.setTurns l).err = s.err := rfl
@[simp] theorem State.setTurns_ovr (l : List Turn) : (s.setTurns l).ovr = s.ovr := rfl
@[simp] theorem State.setTurns_bw (l : List Turn) : (s.setTurns l).bw = s.bw := rfl
@[simp] theorem State.setTurns_tb (l : List Turn) : (s.setTurns l).tb = s.tb := rfl
@[simp] theorem State.setTurns_table (l : List Turn) : (s.setTurns l).table = s.table := rfl
@[simp] theorem State.setTurns_pend (l : List Turn) : (s.setTurns l).pend = s.pend := rfl
@[simp] theorem State.setTurns_mem (l : List Turn) : (s.setTurns l).mem = s.mem := rfl
@[simp] theorem State.setTurns_program (l : List Turn) : (s.setTurns l).program = s.program := rfl
@[simp] theorem State.setTurns_turns (l : List Turn) : (s.setTurns l).turns = l := rfl
@[simp] theorem State.setTurns_notes (l : List Turn) : (s.setTurns l).notes = s.notes := rfl
@[simp] theorem State.setTurns_draws (l : List Turn) : (s.setTurns l).draws = s.draws := rfl

/-! ## addNote -/

@[simp] theorem State.addNote_params (n : Note) : (s.addNote n).params = s.params := rfl
@[simp] theorem State.addNote_val (n : Note) : (s.addNote n).val = s.val := rfl
@[simp] theorem State.addNote_addr (n : Note) : (s.addNote n).addr = s.addr := rfl
@[simp] theorem State.addNote_len (n : Note) : (s.addNote n).len = s.len := rfl
@[simp] theorem State.addNote_result (n : Note) : (s.addNote n).result = s.result := rfl
@[simp] theorem State.addNote_err (n : Note) : (s.addNote n).err = s.err := rfl
@[simp] theorem State.addNote_ovr (n : Note) : (s.addNote n).ovr = s.ovr := rfl
@[simp] theorem State.addNote_bw (n : Note) : (s.addNote n).bw = s.bw := rfl
@[simp] theorem State.addNote_tb (n : Note) : (s.addNote n).tb = s.tb := rfl
@[simp] theorem State.addNote_table (n : Note) : (s.addNote n).table = s.table := rfl
@[simp] theorem State.addNote_pend (n : Note) : (s.addNote n).pend = s.pend := rfl
@[simp] theorem State.addNote_mem (n : Note) : (s.addNote n).mem = s.mem := rfl
@[simp] theorem State.addNote_program (n : Note) : (s.addNote n).program = s.program := rfl
@[simp] theorem State.addNote_turns (n : Note) : (s.addNote n).turns = s.turns := rfl
@[simp] theorem State.addNote_notes (n : Note) : (s.addNote n).notes = n :: s.notes := rfl
@[simp] theorem State.addNote_draws (n : Note) : (s.addNote n).draws = s.draws := rfl

/-! ## addDraws -/

@[simp] theorem State.addDraws_params (k : Nat) : (s.addDraws k).params = s.params := rfl
@[simp] theorem State.addDraws_val (k : Nat) : (s.addDraws k).val = s.val := rfl
@[simp] theorem State.addDraws_addr (k : Nat) : (s.addDraws k).addr = s.addr := rfl
@[simp] theorem State.addDraws_len (k : Nat) : (s.addDraws k).len = s.len := rfl
@[simp] theorem State.addDraws_result (k : Nat) : (s.addDraws k).result = s.result := rfl
@[simp] theorem State.addDraws_err (k : Nat) : (s.addDraws k).err = s.err := rfl
@[simp] theorem State.addDraws_ovr (k : Nat) : (s.addDraws k).ovr = s.ovr := rfl
@[simp] theorem State.addDraws_bw (k : Nat) : (s.addDraws k).bw = s.bw := rfl
@[simp] theorem State.addDraws_tb (k : Nat) : (s.addDraws k).tb = s.tb := rfl
@[simp] theorem State.addDraws_table (k : Nat) : (s.addDraws k).table = s.table := rfl
@[simp] theorem State.addDraws_pend (k : Nat) : (s.addDraws k).pend = s.pend := rfl
@[simp] theorem State.addDraws_mem (k : Nat) : (s.addDraws k).mem = s.mem := rfl
@[simp] theorem State.addDraws_program (k : Nat) : (s.addDraws k).program = s.program := rfl
@[simp] theorem State.addDraws_turns (k : Nat) : (s.addDraws k).turns = s.turns := rfl
@[simp] theorem State.addDraws_notes (k : Nat) : (s.addDraws k).notes = s.notes := rfl
@[simp] theorem State.addDraws_draws (k : Nat) : (s.addDraws k).draws = s.draws + k := rfl

/-! ## endCommand, accept, resetBlock -/

@[simp] theorem State.endCommand_params (e : ErrCode) : (s.endCommand e).params = s.params := rfl
@[simp] theorem State.endCommand_val (e : ErrCode) : (s.endCommand e).val = s.val := rfl
@[simp] theorem State.endCommand_addr (e : ErrCode) : (s.endCommand e).addr = s.addr := rfl
@[simp] theorem State.endCommand_len (e : ErrCode) : (s.endCommand e).len = s.len := rfl
@[simp] theorem State.endCommand_result (e : ErrCode) : (s.endCommand e).result = s.result := rfl
@[simp] theorem State.endCommand_err (e : ErrCode) : (s.endCommand e).err = e := rfl
@[simp] theorem State.endCommand_ovr (e : ErrCode) : (s.endCommand e).ovr = s.ovr := rfl
@[simp] theorem State.endCommand_bw (e : ErrCode) : (s.endCommand e).bw = s.bw := rfl
@[simp] theorem State.endCommand_tb (e : ErrCode) : (s.endCommand e).tb = s.tb := rfl
@[simp] theorem State.endCommand_table (e : ErrCode) : (s.endCommand e).table = s.table := rfl
@[simp] theorem State.endCommand_pend (e : ErrCode) : (s.endCommand e).pend = none := rfl
@[simp] theorem State.endCommand_mem (e : ErrCode) : (s.endCommand e).mem = s.mem := rfl
@[simp] theorem State.endCommand_program (e : ErrCode) : (s.endCommand e).program = s.program := rfl
@[simp] theorem State.endCommand_turns (e : ErrCode) : (s.endCommand e).turns = s.turns := rfl
@[simp] theorem State.endCommand_notes (e : ErrCode) : (s.endCommand e).notes = s.notes := rfl
@[simp] theorem State.endCommand_draws (e : ErrCode) : (s.endCommand e).draws = s.draws := rfl

@[simp] theorem State.accept_params (w : CmdWord) :
    (s.accept w).params = s.params := rfl
@[simp] theorem State.accept_val (w : CmdWord) :
    (s.accept w).val = s.val := rfl
@[simp] theorem State.accept_addr (w : CmdWord) :
    (s.accept w).addr = s.addr := rfl
@[simp] theorem State.accept_len (w : CmdWord) :
    (s.accept w).len = s.len := rfl
@[simp] theorem State.accept_result (w : CmdWord) :
    (s.accept w).result = s.result := rfl
@[simp] theorem State.accept_err (w : CmdWord) :
    (s.accept w).err = s.err := rfl
@[simp] theorem State.accept_ovr (w : CmdWord) :
    (s.accept w).ovr = s.ovr := rfl
@[simp] theorem State.accept_bw (w : CmdWord) :
    (s.accept w).bw = s.bw := rfl
@[simp] theorem State.accept_tb (w : CmdWord) :
    (s.accept w).tb = s.tb := rfl
@[simp] theorem State.accept_table (w : CmdWord) :
    (s.accept w).table = s.table := rfl
@[simp] theorem State.accept_pend (w : CmdWord) :
    (s.accept w).pend = some { word := w, val := s.val, addr := s.addr, len := s.len, held := [] } := rfl
@[simp] theorem State.accept_mem (w : CmdWord) :
    (s.accept w).mem = s.mem := rfl
@[simp] theorem State.accept_program (w : CmdWord) :
    (s.accept w).program = s.program := rfl
@[simp] theorem State.accept_turns (w : CmdWord) :
    (s.accept w).turns = s.turns := rfl
@[simp] theorem State.accept_notes (w : CmdWord) :
    (s.accept w).notes = s.notes := rfl
@[simp] theorem State.accept_draws (w : CmdWord) :
    (s.accept w).draws = s.draws := rfl

@[simp] theorem State.resetBlock_params : s.resetBlock.params = s.params := rfl
@[simp] theorem State.resetBlock_val : s.resetBlock.val = 0 := rfl
@[simp] theorem State.resetBlock_addr : s.resetBlock.addr = 0 := rfl
@[simp] theorem State.resetBlock_len : s.resetBlock.len = 0 := rfl
@[simp] theorem State.resetBlock_result : s.resetBlock.result = 0 := rfl
@[simp] theorem State.resetBlock_err : s.resetBlock.err = .none := rfl
@[simp] theorem State.resetBlock_ovr : s.resetBlock.ovr = false := rfl
@[simp] theorem State.resetBlock_bw : s.resetBlock.bw = EngineCfg.unconfigured s.params.W := rfl
@[simp] theorem State.resetBlock_tb : s.resetBlock.tb = EngineCfg.unconfigured s.params.W := rfl
@[simp] theorem State.resetBlock_pend : s.resetBlock.pend = none := rfl
@[simp] theorem State.resetBlock_mem : s.resetBlock.mem = s.mem := rfl
@[simp] theorem State.resetBlock_program : s.resetBlock.program = s.program := rfl
@[simp] theorem State.resetBlock_turns : s.resetBlock.turns = s.turns := rfl
@[simp] theorem State.resetBlock_notes : s.resetBlock.notes = s.notes := rfl
@[simp] theorem State.resetBlock_draws : s.resetBlock.draws = s.draws := rfl

end Sys2Proof.Machine
end

