-- ==== Sys2Proof/Laws/Ops.lean ====
section
/-! SUPPORT. What each shared operation can do, said once: later proofs cite these instead of unfolding. -/

namespace Sys2Proof.Machine

variable {s t : State}

/-! ## Latched operands -/

theorem State.withPending_some {p : Pending s.params.W} (h : s.pend = some p) (f : Pending s.params.W → Result) :
    s.withPending f = f p := by
  simp [State.withPending, h]

theorem State.withPending_none (h : s.pend = none) (f : Pending s.params.W → Result) :
    s.withPending f = .next s := by
  simp [State.withPending, h]

/-- A meaning on latched operands either has none and leaves the state, or runs on them. -/
theorem State.withPending_cases {f : Pending s.params.W → Result} {r : Result} (h : s.withPending f = r) :
    (s.pend = none ∧ r = .next s) ∨ ∃ p, s.pend = some p ∧ r = f p := by
  cases hp : s.pend with
  | none => exact .inl ⟨rfl, by rw [← h, State.withPending_none hp]⟩
  | some p => exact .inr ⟨p, rfl, by rw [← h, State.withPending_some hp]⟩

/-! ## The end of a command -/

theorem State.raiseError_eq (s : State) (e : ErrCode) : s.raiseError e = .next { s with err := e, pend := none } := rfl

theorem State.complete_eq (s : State) : s.complete = .next { s with err := .none, pend := none } := rfl

theorem State.completeWith_eq (s : State) (v : BitVec s.params.W) :
    s.completeWith v = .next { s with result := v, err := .none, pend := none } := rfl

/-! ## The range check (`20_memory.md` R52) -/

theorem rangeLegal_eq_true {n : Nat} {a l : BitVec 64} : rangeLegal n a l = true ↔ l = 0 ∨ a.toNat + l.toNat ≤ n := by
  simp [rangeLegal]

/-! ## The bodies two commands share -/

/-- `shift.*` with a command in flight. -/
theorem State.runShift_eq {p : Pending s.params.W} (h : s.pend = some p) (c : EngineCfg s.params.W) (n : Nat) :
    s.runShift c n = if c.valid then s.completeWith (dirShift c.dir p.val n) else s.raiseError .nocfg := by
  simp [State.runShift, State.withPending_some h]

/-- `crc.*` with a command in flight. -/
theorem State.runCrc_eq {p : Pending s.params.W} (h : s.pend = some p) (c : EngineCfg s.params.W)
    (f : BitVec s.params.W → List Byte → BitVec s.params.W) :
    s.runCrc c f =
      if !c.valid then s.raiseError .nocfg
      else if !rangeLegal s.params.memBytes p.addr p.len then s.raiseError .range
      else (s.addDraws p.len.toNat).completeWith (f p.val (s.dataBytes p)) := by
  simp [State.runCrc, State.withPending_some h]

/-! ## The read port -/

theorem State.dataBytes_length (s : State) (p : Pending s.params.W) : (s.dataBytes p).length = p.len.toNat := by
  simp [State.dataBytes]

theorem State.dataBytes_getElem? (s : State) (p : Pending s.params.W) {k : Nat} (h : k < p.len.toNat) :
    (s.dataBytes p)[k]? = some (s.memRead p k (p.addr.toNat + k)) := by
  simp [State.dataBytes, h]

theorem State.mem_heldValues {p : Pending s.params.W} {a : Nat} {v : Byte} :
    v ∈ s.heldValues p a ↔ v = Memory.read s.mem a ∨ (a, v) ∈ p.held := by
  simp [State.heldValues, List.mem_insert_iff]

/-- A byte the host has not written in flight has one value to read. -/
theorem State.heldValues_of_not_held {p : Pending s.params.W} {a : Nat} (h : ∀ c ∈ p.held, c.1 ≠ a) :
    s.heldValues p a = [Memory.read s.mem a] := by
  have : (p.held.filter fun c => c.1 == a) = [] := by simpa using fun x y hx => h _ hx
  simp [State.heldValues, this]

/-! ## The host's memory write -/

theorem State.recordHeld_none (h : s.pend = none) (a : Nat) : s.recordHeld a = s := by simp [State.recordHeld, h]

theorem State.recordHeld_some {p : Pending s.params.W} (h : s.pend = some p) (a : Nat) :
    s.recordHeld a = s.setPend (some { p with held := p.held.insert (a, Memory.read s.mem a) }) := by
  simp [State.recordHeld, h]

theorem State.hostMemWrite_of_lt {a : Nat} (h : a < s.params.memBytes) (b : Byte) :
    s.hostMemWrite a b = .next ((s.recordHeld a).setMem (Memory.write s.mem a b)) := by
  simp [State.hostMemWrite, h]

/-- With a command in flight, the host's memory write changes memory and what the latch remembers, nothing else. -/
theorem State.hostMemWrite_some {p : Pending s.params.W} (hp : s.pend = some p) {a : Nat} (h : a < s.params.memBytes)
    (b : Byte) : s.hostMemWrite a b = .next { s with
      mem := Memory.write s.mem a b, pend := some { p with held := p.held.insert (a, Memory.read s.mem a) } } := by
  rw [State.hostMemWrite_of_lt h, State.recordHeld_some hp]
  rfl

/-- With none in flight it changes memory alone. -/
theorem State.hostMemWrite_none (hp : s.pend = none) {a : Nat} (h : a < s.params.memBytes) (b : Byte) :
    s.hostMemWrite a b = .next { s with mem := Memory.write s.mem a b } := by
  rw [State.hostMemWrite_of_lt h, State.recordHeld_none hp]
  rfl

theorem State.hostMemWrite_of_ge {a : Nat} (h : s.params.memBytes ≤ a) (b : Byte) :
    s.hostMemWrite a b = .fault (.noSuchAddress a) := by
  simp [State.hostMemWrite, Nat.not_lt_of_le h]

/-! ## Busy -/

theorem State.busy_eq_true : s.busy = true ↔ ∃ p, s.pend = some p := by simp [State.busy, Option.isSome_iff_exists]

theorem State.busy_eq_false : s.busy = false ↔ s.pend = none := by simp [State.busy]

end Sys2Proof.Machine
end

