-- ==== Sys2Proof/Laws/PerInstr.lean ====
section
/-! SUPPORT. Facts stated per command, as syntax. Family `RowMatch`: the encoded word of a command matches its own row of
the opcode map (`30_encoding.md` R74). -/

namespace Sys2Proof.Laws.RowMatch

/-- The row of a command. -/
def rowOf : Instr → Row
  | .cfgBw _ => .cfgBw
  | .cfgTb _ => .cfgTb
  | .crcBw => .crcBw
  | .crcTb => .crcTb
  | .rev => .rev
  | .shiftBw _ => .shiftBw
  | .shiftTb _ => .shiftTb
  | .tblrd _ => .tblrd

/-- The encoded word has the row's pattern under the row's mask. -/
def Statement (i : Instr) : Prop := (rowOf i).hits (encode i) = true

theorem cfgBw (d : Dir) : Statement (.cfgBw d) := (Row.hits_iff _ _).2 (by simp [rowOf, encode, Row.anyDir, Row.eng, Row.op])

theorem cfgTb (d : Dir) : Statement (.cfgTb d) := (Row.hits_iff _ _).2 (by simp [rowOf, encode, Row.anyDir, Row.eng, Row.op])

theorem crcBw : Statement .crcBw := (Row.hits_iff _ _).2 (by simp [rowOf, encode, Row.eng, Row.op])

theorem crcTb : Statement .crcTb := (Row.hits_iff _ _).2 (by simp [rowOf, encode, Row.eng, Row.op])

theorem rev : Statement .rev := (Row.hits_iff _ _).2 (by simp [rowOf, encode, Row.eng, Row.op])

theorem shiftBw (n : Nat) : Statement (.shiftBw n) :=
  (Row.hits_iff _ _).2 (by simp [rowOf, encode, Row.anyImm, Row.eng, Row.op])

theorem shiftTb (n : Nat) : Statement (.shiftTb n) :=
  (Row.hits_iff _ _).2 (by simp [rowOf, encode, Row.anyImm, Row.eng, Row.op])

theorem tblrd (i : Fin 256) : Statement (.tblrd i) :=
  (Row.hits_iff _ _).2 (by simp [rowOf, encode, Row.anyImm, Row.eng, Row.op])

end Sys2Proof.Laws.RowMatch
end

