-- ==== Sys2Proof/Laws/Step.lean ====
section
/-! SUPPORT. What one step can do, said once. -/

namespace Sys2Proof.Machine

variable {s t : State}

/-- The agent that moves in the next step. -/
def State.mover (s : State) : Turn := s.turns.headD s.defaultTurn

/-- One step is the turn of the agent that moves, the schedule shortened. -/
theorem step_eq_takeTurn (s : State) : step s = (s.setTurns s.turns.tail).takeTurn s.mover := by
  unfold step State.mover
  cases h : s.turns with
  | nil =>
    have : s.setTurns [] = s := by
      unfold State.setTurns
      rw [← h]
    simp [this]
  | cons t rest => simp

theorem executorTurn_none (h : s.pend = none) : s.executorTurn = .next s := by
  simp [State.executorTurn, h]

theorem executorTurn_instr {p : Pending s.params.W} {i : Instr} (h : s.pend = some p) (hd : decode p.word = .instr i) :
    s.executorTurn = exec i s := by
  simp [State.executorTurn, h, hd]

theorem executorTurn_illegal {p : Pending s.params.W} {why : Illegal} (h : s.pend = some p)
    (hd : decode p.word = .illegal why) : s.executorTurn = s.raiseError .illegal := by
  simp [State.executorTurn, h, hd]

/-- The executor's turn is idle, runs the decoded command, or reports an illegal word. -/
theorem executorTurn_cases (s : State) :
    (s.pend = none ∧ s.executorTurn = .next s) ∨
      (∃ p i, s.pend = some p ∧ decode p.word = .instr i ∧ s.executorTurn = exec i s) ∨
      (∃ p why, s.pend = some p ∧ decode p.word = .illegal why ∧ s.executorTurn = s.raiseError .illegal) := by
  cases hp : s.pend with
  | none => exact .inl ⟨rfl, executorTurn_none hp⟩
  | some p =>
    cases hd : decode p.word with
    | instr i => exact .inr (.inl ⟨p, i, rfl, hd, executorTurn_instr hp hd⟩)
    | illegal why => exact .inr (.inr ⟨p, why, rfl, hd, executorTurn_illegal hp hd⟩)

theorem hostTurn_nil (h : s.program = []) : s.hostTurn = .next s := by simp [State.hostTurn, h]

theorem hostTurn_cons {x : HostAction} {rest : List HostAction} (h : s.program = x :: rest) :
    s.hostTurn = (s.setProgram rest).hostDo x := by
  simp [State.hostTurn, h]

/-! ## All that a host turn can do -/

/-- A register write reaches VAL, ADDR, LEN, OVR and an empty latch at most, and the first three only under their own
numbers. -/
theorem regWrite_frame (s : State) (r : Reg) (v : HostWord) :
    ∃ x a l o p, s.regWrite r v = { s with val := x, addr := a, len := l, ovr := o, pend := p } ∧
      (r ≠ .val → x = s.val) ∧ (r ≠ .addr → a = s.addr) ∧ (r ≠ .len → l = s.len) ∧ (s.pend ≠ none → p = s.pend) := by
  cases r with
  | cmd =>
    cases hp : s.pend with
    | none =>
      exact ⟨_, _, _, _, _, by simp only [State.regWrite, State.writeCmd, hp]; rfl, fun _ => rfl, fun _ => rfl,
        fun _ => rfl, fun h => absurd rfl h⟩
    | some p =>
      exact ⟨s.val, s.addr, s.len, true, some p, by simp only [State.regWrite, State.writeCmd, hp]; rw [← hp]; rfl,
        fun _ => rfl, fun _ => rfl, fun _ => rfl, fun _ => rfl⟩
  | status =>
    cases hv : v.getLsbD 8 with
    | true =>
      exact ⟨s.val, s.addr, s.len, false, s.pend, by simp only [State.regWrite, hv]; rfl, fun _ => rfl, fun _ => rfl,
        fun _ => rfl, fun _ => rfl⟩
    | false =>
      exact ⟨s.val, s.addr, s.len, s.ovr, s.pend, by simp only [State.regWrite, hv]; rfl, fun _ => rfl, fun _ => rfl,
        fun _ => rfl, fun _ => rfl⟩
  | val => exact ⟨_, _, _, _, _, rfl, fun h => absurd rfl h, fun _ => rfl, fun _ => rfl, fun _ => rfl⟩
  | addr => exact ⟨_, _, _, _, _, rfl, fun _ => rfl, fun h => absurd rfl h, fun _ => rfl, fun _ => rfl⟩
  | len => exact ⟨_, _, _, _, _, rfl, fun _ => rfl, fun _ => rfl, fun h => absurd rfl h, fun _ => rfl⟩
  | result | param | rsv7 | bwCfg | bwPoly | bwMask | rsv11 | tbCfg | tbPoly | tbMask | rsv15 =>
    exact ⟨s.val, s.addr, s.len, s.ovr, s.pend, rfl, fun _ => rfl, fun _ => rfl, fun _ => rfl, fun _ => rfl⟩

/-- The host's next entry writes register `r`. -/
def State.hostWrites (s : State) (r : Reg) : Prop :=
  s.program.head? = some (.writeBack r) ∨ ∃ v : HostWord, s.program.head? = some (.write r v)

/-- The host's turn leaves RESULT, ERR, both configurations, the table, the schedule and the draws. It leaves VAL, ADDR
and LEN unless its entry writes them, and of a command in flight it leaves all but what is remembered for R59. -/
theorem hostTurn_frame (h : s.hostTurn = .next t) : ∃ x a l o p m pr no,
    t = { s with val := x, addr := a, len := l, ovr := o, pend := p, mem := m, program := pr, notes := no } ∧
      (¬ s.hostWrites .val → x = s.val) ∧ (¬ s.hostWrites .addr → a = s.addr) ∧ (¬ s.hostWrites .len → l = s.len) ∧
      ∀ q, s.pend = some q → ∃ held, p = some { q with held := held } := by
  have keep : ∀ q, s.pend = some q → ∃ held, s.pend = some { q with held := held } := fun q hq => ⟨q.held, hq⟩
  have hw : ∀ rest r v, (∀ r', ¬ s.hostWrites r' → r ≠ r') → ∃ x a l o p m pr no, (s.setProgram rest).hostWrite r v =
      { s with val := x, addr := a, len := l, ovr := o, pend := p, mem := m, program := pr, notes := no } ∧
        (¬ s.hostWrites .val → x = s.val) ∧ (¬ s.hostWrites .addr → a = s.addr) ∧
        (¬ s.hostWrites .len → l = s.len) ∧ ∀ q, s.pend = some q → ∃ held, p = some { q with held := held } := by
    intro rest r v hr
    obtain ⟨x, a, l, o, p, he, h1, h2, h3, h4⟩ := regWrite_frame (s.setProgram rest) r v
    refine ⟨x, a, l, o, p, s.mem, rest, .wrote r v :: s.notes, by unfold State.hostWrite; rw [he]; rfl,
      fun h => h1 (hr _ h), fun h => h2 (hr _ h), fun h => h3 (hr _ h), fun q hq => ⟨q.held, ?_⟩⟩
    have hq' : (s.setProgram rest).pend = some q := hq
    rw [h4 (by rw [hq']; exact nofun), hq']
  cases hpr : s.program with
  | nil =>
    rw [hostTurn_nil hpr] at h
    cases h
    exact ⟨s.val, s.addr, s.len, s.ovr, s.pend, s.mem, s.program, s.notes, rfl, fun _ => rfl, fun _ => rfl,
      fun _ => rfl, keep⟩
  | cons x rest =>
    rw [hostTurn_cons hpr] at h
    cases x with
    | memWrite a b =>
      simp only [State.hostDo, State.hostMemWrite] at h
      split at h
      · cases h
        cases hp : s.pend with
        | none =>
          rw [State.recordHeld_none (s := s.setProgram rest) hp]
          exact ⟨s.val, s.addr, s.len, s.ovr, none, _, rest, s.notes, by rw [← hp]; rfl, fun _ => rfl, fun _ => rfl,
            fun _ => rfl, nofun⟩
        | some p =>
          rw [State.recordHeld_some (s := s.setProgram rest) (p := p) hp]
          refine ⟨s.val, s.addr, s.len, s.ovr, _, _, rest, s.notes, rfl, fun _ => rfl, fun _ => rfl, fun _ => rfl,
            fun q hq => ⟨p.held.insert (a, Memory.read s.mem a), ?_⟩⟩
          rw [← Option.some.inj hq]
          rfl
      · cases h
    | read r =>
      cases h
      exact ⟨_, _, _, _, s.pend, _, _, _, rfl, fun _ => rfl, fun _ => rfl, fun _ => rfl, keep⟩
    | wait =>
      simp only [State.hostDo] at h
      split at h <;> cases h <;>
        exact ⟨_, _, _, _, s.pend, _, _, _, rfl, fun _ => rfl, fun _ => rfl, fun _ => rfl, keep⟩
    | write r v =>
      cases h
      exact hw rest r v fun r' hr e => hr (.inr ⟨v, by rw [hpr, e]; rfl⟩)
    | writeBack r =>
      cases h
      exact hw rest r _ fun r' hr e => hr (.inl (by rw [hpr, e]; rfl))

/-- What a command's meaning does when none is in flight. -/
theorem exec_of_idle (i : Instr) (h : s.pend = none) : exec i s = .next s := by
  cases i <;>
    simp [exec, execCfgBw, execCfgTb, execCrcBw, execCrcTb, execRev, execShiftBw, execShiftTb, execTblrd,
      State.runCrc, State.runShift, State.withPending_none h]

/-! ## Runs of the host's core -/

theorem run_zero_iff : Host.Core.run core 0 s = .next t ↔ s = t := by
  constructor
  · intro h
    injection h
  · rintro rfl
    rfl

/-- A run's first step. -/
theorem run_succ_of_step {k : Nat} (h : step s = .next t) : Host.Core.run core (k + 1) s = Host.Core.run core k t := by
  have h' : core.step s = .next t := h
  simp only [Host.Core.run, h']

/-- A run that ends in a state has taken a first step to a state. -/
theorem step_of_run_succ {k : Nat} {u : State} (h : Host.Core.run core (k + 1) s = .next u) :
    ∃ t, step s = .next t ∧ Host.Core.run core k t = .next u := by
  simp only [Host.Core.run] at h
  split at h
  · rename_i t ht
    exact ⟨t, ht, h⟩
  · cases h
  · cases h

end Sys2Proof.Machine
end

