-- ==== Sys2Proof/Laws/Units.lean ====
section
/-! SUPPORT. Spec lemmas of the combinational units: what each bit or number of their results is. -/

namespace Sys2Proof

theorem Width.eight_le (w : Width) : 8 ≤ w.bits := by cases w <;> decide

theorem Width.le_sixtyFour (w : Width) : w.bits ≤ 64 := by cases w <;> decide

end Sys2Proof

namespace Sys2Proof.Machine

variable {W : Nat}

/-! ## Shifts (`41_directional_shifter.md` R110) -/

theorem shl_eq (x : BitVec W) (n : Nat) : shl x n = x <<< n := by
  unfold shl
  split
  · apply BitVec.eq_of_toNat_eq
    simp [Nat.shiftLeft_eq]
  · rename_i h
    exact (BitVec.shiftLeft_eq_zero (by omega)).symm

theorem shr_eq (x : BitVec W) (n : Nat) : shr x n = x >>> n := by
  unfold shr
  split
  · apply BitVec.eq_of_toNat_eq
    have : x.toNat / 2 ^ n < 2 ^ W := (Nat.div_le_self _ _).trans_lt x.isLt
    simp [Nat.shiftRight_eq_div_pow, Nat.mod_eq_of_lt this]
  · rename_i h
    exact (BitVec.ushiftRight_eq_zero (by omega)).symm

theorem getLsbD_shl (x : BitVec W) (n i : Nat) :
    (shl x n).getLsbD i = (decide (i < W) && decide (n ≤ i) && x.getLsbD (i - n)) := by
  rw [shl_eq, BitVec.getLsbD_shiftLeft]
  by_cases h : i < n <;> simp [h, Nat.not_le_of_lt, Nat.le_of_not_lt]

theorem getLsbD_shr (x : BitVec W) (n i : Nat) : (shr x n).getLsbD i = x.getLsbD (n + i) := by
  rw [shr_eq, BitVec.getLsbD_ushiftRight]

/-! ## Bit reversal (`40_bit_reversal.md` R100) -/

/-- What the loop of R100 has set after its first `n` rounds. -/
theorem getLsbD_bitReverse_loop (x : BitVec W) (n j : Nat) (hn : n ≤ W) :
    ((List.range n).foldl (fun y i => if x.getLsbD i then y ||| BitVec.twoPow W (W - 1 - i) else y) 0#W).getLsbD j
      = (decide (j < W) && decide (W - 1 - j < n) && x.getLsbD (W - 1 - j)) := by
  induction n with
  | zero => simp
  | succ n ih =>
    have ih := ih (by omega)
    rw [List.range_succ, List.foldl_append]
    simp only [List.foldl_cons, List.foldl_nil]
    by_cases hx : x.getLsbD n <;> by_cases hj : j < W <;> by_cases he : W - 1 - j = n
    all_goals simp_all
    all_goals try omega
    · grind
    · grind

/-- Bit `j` of the reversed value is bit `W-1-j` of the value. -/
theorem getLsbD_bitReverse (x : BitVec W) (j : Nat) :
    (bitReverse x).getLsbD j = (decide (j < W) && x.getLsbD (W - 1 - j)) := by
  unfold bitReverse
  rw [getLsbD_bitReverse_loop x W j (Nat.le_refl W)]
  by_cases h : j < W
  · have h2 : W - 1 - j < W := by omega
    simp [h, h2]
  · simp [h]

/-! ## The table (`43_table_engine.md` R140) -/

theorem buildTable_getElem (c : EngineCfg W) (i : Nat) (h : i < 256) :
    (buildTable c)[i] = bwByte c 0#W (BitVec.ofNat 8 i) := by
  simp [buildTable, Vector.getElem_mk]

end Sys2Proof.Machine
end

