-- ==== Sys2Proof/Tests/Slice0.lean ====
section
/-! SUPPORT. Tests. Expected values are those of `spec/95_test_vectors.md` (each test names its vector) or are written
out from the rule named. The second half shows, for every obligation with hypotheses, a state and operands that meet
them, one witness per clause. -/

namespace Sys2Proof.Tests

open Sys2Proof.Machine

-- One theorem after the other: many small ones elaborated at once take a thread each.
set_option Elab.async false

/-! ## Helpers -/

/-- A block right after reset, over 16 bytes of data memory. -/
def blk (w : Width) : State := State.resetOf { width := w, memBytes := 16 }

/-- That block with a command in flight. -/
def sent (w : Width) (val : BitVec w.bits) (addr len : Nat) (word : CmdWord) : State :=
  ((((blk w).setVal val).setAddr (BitVec.ofNat 64 addr)).setLen (BitVec.ofNat 64 len)).accept word

/-- The bitwise engine constructed. -/
def withBw (s : State) (d : Dir) (P : BitVec s.params.W) : State := s.setBw (derive d P)

/-- The table engine constructed. -/
def withTb (s : State) (d : Dir) (P : BitVec s.params.W) : State :=
  (s.setTb (derive d P)).setTable (buildTable (derive d P))

/-- The nine bytes "123456789" at address 0. -/
def check : Memory :=
  [(0, 0x31#8), (1, 0x32#8), (2, 0x33#8), (3, 0x34#8), (4, 0x35#8), (5, 0x36#8), (6, 0x37#8), (7, 0x38#8), (8, 0x39#8)]

/-- The bytes "ABCDEF" at address 10. -/
def letters : Memory := [(10, 0x41#8), (11, 0x42#8), (12, 0x43#8), (13, 0x44#8), (14, 0x45#8), (15, 0x46#8)]

/-- What `f` sees in the next state. -/
def view {α : Type} (r : Result) (f : State → α) : Option α :=
  match r with
  | .next t => some (f t)
  | _ => none

/-- RESULT and STATUS as the host reads them. -/
def resultStatus (s : State) : Nat × Nat := ((s.regRead .result).toNat, (s.regRead .status).toNat)

/-! ## The checks of WellFormed refuse ill-formed terms -/

theorem test_wellFormed_shiftBw : (Instr.shiftBw 256).wellFormed = false := by decide
theorem test_wellFormed_shiftTb : (Instr.shiftTb 256).wellFormed = false := by decide
theorem test_wellFormed_fitsHostWord : fitsHostWord (2 ^ 64) = false := by decide
theorem test_wellFormed_wr : (AsmLine.wr .val (2 ^ 64)).wellFormed = false := by decide
theorem test_wellFormed_mw : (AsmLine.mw 0 [255, 256]).wellFormed = false := by decide
theorem test_wellFormed_shift : (AsmLine.shift .bw 256).wellFormed = false := by decide
theorem test_wellFormed_tblrd : (AsmLine.tblrd 256).wellFormed = false := by decide
theorem test_wellFormed_cfgWith : (AsmLine.cfgWith .tb .msbFirst (2 ^ 64)).wellFormed = false := by decide
theorem test_wellFormed_crcWith_seed : (AsmLine.crcWith .bw (2 ^ 64) 0 0).wellFormed = false := by decide
theorem test_wellFormed_crcWith_addr : (AsmLine.crcWith .bw 0 (2 ^ 64) 0).wellFormed = false := by decide
theorem test_wellFormed_crcWith_len : (AsmLine.crcWith .bw 0 0 (2 ^ 64)).wellFormed = false := by decide
theorem test_wellFormed_revWith : (AsmLine.revWith (2 ^ 64)).wellFormed = false := by decide
theorem test_wellFormed_shiftWith_value : (AsmLine.shiftWith .tb (2 ^ 64) 0).wellFormed = false := by decide
theorem test_wellFormed_shiftWith_count : (AsmLine.shiftWith .tb 0 256).wellFormed = false := by decide
theorem test_wellFormed_tblrdWait : (AsmLine.tblrdWait 256).wellFormed = false := by decide

/-! ## Decoding: words written out bit by bit from the patterns of R74 -/

theorem test_decode_cfgBw : decode 0b00000000000000000000000000000001#32 = .instr (.cfgBw .msbFirst) ∧
    decode 0b00000000000000000000000000100001#32 = .instr (.cfgBw .lsbFirst) := by decide
theorem test_decode_cfgTb : decode 0b00000000000000000000000000010001#32 = .instr (.cfgTb .msbFirst) ∧
    decode 0b00000000000000000000000000110001#32 = .instr (.cfgTb .lsbFirst) := by decide
theorem test_decode_crcBw : decode 0b00000000000000000000000000000010#32 = .instr .crcBw := by decide
theorem test_decode_crcTb : decode 0b00000000000000000000000000010010#32 = .instr .crcTb := by decide
theorem test_decode_rev : decode 0b00000000000000000000000000000011#32 = .instr .rev := by decide
theorem test_decode_shiftBw : decode 0b00000000000000001010010100000100#32 = .instr (.shiftBw 0xA5) := by decide
theorem test_decode_shiftTb : decode 0b00000000000000000000100000010100#32 = .instr (.shiftTb 8) := by decide
theorem test_decode_tblrd : decode 0b00000000000000001000000100000101#32 = .instr (.tblrd 0x81) := by decide

/-- V-ERR-1 to V-ERR-11: every one of these words is ILLEGAL, and for the bullet of R76 it breaks. -/
theorem test_decode_illegal :
    decode 0x00000000#32 = .illegal .noSuchOp ∧ decode 0x00000006#32 = .illegal .noSuchOp ∧
    decode 0x0000000F#32 = .illegal .noSuchOp ∧ decode 0x00000041#32 = .illegal .reservedBits ∧
    decode 0x00010002#32 = .illegal .reservedBits ∧ decode 0x00000022#32 = .illegal .direction ∧
    decode 0x00000103#32 = .illegal .immediate ∧ decode 0x00000013#32 = .illegal .engine ∧
    decode 0x00000015#32 = .illegal .engine ∧ decode 0x00000101#32 = .illegal .immediate ∧
    decode 0x80000001#32 = .illegal .reservedBits := by decide

/-! ## The commands, two tests each at most -/

/-- V-CFG-4: BW_POLY, BW_MASK and BW_CFG. -/
theorem test_cfgBw_lsb16 : view (exec (.cfgBw .lsbFirst) (sent .w16 0x1021#16 0 0 0x21#32))
    (fun t => ((t.regRead .bwPoly).toNat, (t.regRead .bwMask).toNat, (t.regRead .bwCfg).toNat)) =
      some (0x8408, 0x0001, 0x3) := by decide +kernel

/-- V-CFG-7: the 64-bit mask and the pack offset 56. -/
theorem test_cfgBw_msb64 : view (exec (.cfgBw .msbFirst) (sent .w64 0x42F0E1EBA9EA3693#64 0 0 0x01#32))
    (fun t => ((t.regRead .bwPoly).toNat, (t.regRead .bwMask).toNat, (t.regRead .bwCfg).toNat)) =
      some (0x42F0E1EBA9EA3693, 0x8000000000000000, 0x3801) := by decide +kernel

/-- V-TBL-3: a table with the byte shifted by the pack offset. -/
theorem test_cfgTb_msb16 : view (exec (.cfgTb .msbFirst) (sent .w16 0x1021#16 0 0 0x11#32))
    (fun t => ((t.regRead .tbCfg).toNat, t.table[0x80].toNat, t.table[0xFF].toNat)) =
      some (0x801, 0x9188, 0x1EF0) := by decide +kernel

/-- V-TB-2: TB_POLY and entries 1 and 0x80. -/
theorem test_cfgTb_lsb32 : view (exec (.cfgTb .lsbFirst) (sent .w32 0x04C11DB7#32 0 0 0x31#32))
    (fun t => ((t.regRead .tbPoly).toNat, t.table[1].toNat, t.table[0x80].toNat)) =
      some (0xEDB88320, 0x77073096, 0xEDB88320) := by decide +kernel

/-- V-BW-1, the vector of the source. -/
theorem test_crcBw_lsb16 : view (exec .crcBw (withBw ((sent .w16 0 0 9 0x02#32).setMem check) .lsbFirst 0x1021#16))
    resultStatus = some (0x2189, 0) := by decide +kernel

/-- V-BW-5: MSB-first with a seed. -/
theorem test_crcBw_msb16 : view (exec .crcBw (withBw ((sent .w16 0xFFFF#16 0 9 0x02#32).setMem check) .msbFirst 0x1021#16))
    resultStatus = some (0x29B1, 0) := by decide +kernel

/-- V-TB-1: the index comes from the register before the shift. -/
theorem test_crcTb_msb16 : view (exec .crcTb (withTb ((sent .w16 0 0 9 0x12#32).setMem check) .msbFirst 0x1021#16))
    resultStatus = some (0x31C3, 0) := by decide +kernel

/-- P4: the last bytes of data memory, at W = 8, where a shift by 8 gives 0. -/
theorem test_crcTb_msb8 : view (exec .crcTb (withTb ((sent .w8 0 10 6 0x12#32).setMem letters) .msbFirst 0x07#8))
    resultStatus = some (0x10, 0) := by decide +kernel

/-- V-REV-7. -/
theorem test_rev_16 : view (exec .rev (sent .w16 0x1021#16 0 0 0x03#32)) resultStatus = some (0x8408, 0) := by
  decide +kernel

/-- V-REV-11. -/
theorem test_rev_64 : view (exec .rev (sent .w64 0x42F0E1EBA9EA3693#64 0 0 0x03#32)) resultStatus =
    some (0xC96C5795D7870F42, 0) := by decide +kernel

/-- V-SH-8, to the right. -/
theorem test_shiftBw_lsb16 :
    view (exec (.shiftBw 4) (withBw (sent .w16 0x1234#16 0 0 0x404#32) .lsbFirst 0x1021#16)) resultStatus =
      some (0x0123, 0) := by decide +kernel

/-- V-ERR-15: NOCFG, RESULT unchanged. -/
theorem test_shiftBw_nocfg : view (exec (.shiftBw 1) ((sent .w8 0x5A#8 0 0 0x104#32).setResult 0x77#8)) resultStatus =
    some (0x77, 0x20) := by decide +kernel

/-- V-SH-9, to the left. -/
theorem test_shiftTb_msb16 :
    view (exec (.shiftTb 8) (withTb (sent .w16 0x1234#16 0 0 0x814#32) .msbFirst 0x1021#16)) resultStatus =
      some (0x3400, 0) := by decide +kernel

/-- V-SH-17: the count W at W = 64. -/
theorem test_shiftTb_width64 :
    view (exec (.shiftTb 64) (withTb (sent .w64 0x0123456789ABCDEF#64 0 0 0x4014#32) .msbFirst 1#64)) resultStatus =
      some (0, 0) := by decide +kernel

/-- V-TBL-2, the last entry. -/
theorem test_tblrd_255 : view (exec (.tblrd 255) (withTb (sent .w8 0 0 0 0xFF05#32) .lsbFirst 0x07#8)) resultStatus =
    some (0xCF, 0) := by decide +kernel

/-- V-ERR-14: the bitwise engine does not help. -/
theorem test_tblrd_nocfg : view (exec (.tblrd 0) (withBw (sent .w8 0 0 0 0x05#32) .lsbFirst 0x07#8)) resultStatus =
    some (0, 0x20) := by decide +kernel

/-! ## Errors and the protocol -/

/-- V-ERR-17 and V-ERR-20: RANGE, without wrapping. -/
theorem test_range :
    view (exec .crcTb (withTb (sent .w8 0 10 7 0x12#32) .msbFirst 0x07#8)) resultStatus = some (0, 0x30) ∧
    view (exec .crcTb (withTb (sent .w8 0 0xFFFFFFFFFFFFFFFF 2 0x12#32) .msbFirst 0x07#8)) resultStatus =
      some (0, 0x30) := by decide +kernel

/-- V-ERR-19: no check for an empty range. -/
theorem test_zero_length :
    view (exec .crcTb (withTb (sent .w8 0x5A#8 0xFFFFFFFFFFFFFFFF 0 0x12#32) .msbFirst 0x07#8)) resultStatus =
      some (0x5A, 0) := by decide +kernel

/-- V-ERR-22: a CMD write while BUSY = 1 is dropped with OVR, the command in flight completes. -/
theorem test_overrun : resultStatus ((sent .w8 0x07#8 0 0 0x03#32).regWrite .cmd 0#64) = (0, 0x101) ∧
    view ((sent .w8 0x07#8 0 0 0x03#32).regWrite .cmd 0#64).executorTurn resultStatus = some (0xE0, 0x100) := by
  decide +kernel

/-- V-ERR-23 and V-ERR-24: bit 8 clears OVR, the other bits do nothing. -/
theorem test_status_write : ((((blk .w8).setOvr true).regWrite .status 0x100#64).regRead .status).toNat = 0 ∧
    ((((blk .w8).setOvr true).regWrite .status 0xFF#64).regRead .status).toNat = 0x100 := by decide +kernel

/-- V-ERR-12: bits 63:32 of a CMD write are ignored. -/
theorem test_cmd_high_bits :
    view (((blk .w8).setVal 0x01#8).regWrite .cmd 0xFFFFFFFF00000003#64).executorTurn resultStatus =
      some (0x80, 0) := by decide +kernel

/-- V-ERR-25 and V-ERR-27. -/
theorem test_val_and_param : (((blk .w8).regWrite .val 0x1FF#64).regRead .val).toNat = 0xFF ∧
    ((blk .w8).regRead .param).toNat = 0x08 ∧ ((blk .w64).regRead .param).toNat = 0x40 := by decide +kernel

/-- R79: `chain` writes to VAL the value just read. -/
theorem test_writeBack :
    view ((((blk .w16).setResult 0xD789#16).hostRead .result).setProgram [.writeBack .val]).hostTurn
      (fun t => t.val.toNat) = some 0xD789 := by decide +kernel

/-- R59: a byte written during a command leaves two values the read may return, one not written leaves one. -/
theorem test_held_values :
    view ((sent .w8 0 0 2 0x02#32).hostDo (.memWrite 0 0x55#8)) (fun t => t.pend.map fun p =>
      (t.heldValues p 0, t.heldValues p 1)) = some (some ([0x55#8, 0#8], [0#8])) := by decide +kernel

/-- R101: `rev` needs no engine. It runs first after reset, placed as log entry 8 says. -/
theorem test_placed_rev : view (step (State.reset.withFetchWord 32 0x03)) resultStatus = some (0, 0) := by
  decide +kernel

/-- R76: an illegal word placed completes with ILLEGAL. -/
theorem test_placed_illegal : view (step (State.reset.withFetchWord 32 0x13)) resultStatus = some (0, 0x10) := by
  decide +kernel

/-! ## The assembler: lines of `spec/95_test_vectors.md` section 3 -/

theorem test_asm_mw : assembleText "mw   0x0, \"12\"  ; bytes".toList =
    some [.memWrite 0 0x31#8, .memWrite 1 0x32#8] := by decide +kernel

theorem test_asm_wr : assembleText "wr   ADDR, 0xFFFFFFFFFFFFFFFF".toList = some [.write .addr 0xFFFFFFFFFFFFFFFF#64] := by
  decide +kernel

theorem test_asm_shift : assembleText "shift.tb 8 ; (0, 0x00000814)".toList = some [.write .cmd 0x00000814#64] := by
  decide +kernel

theorem test_asm_cfg_with : assembleText "cfg.bw lsb, 0x1021".toList =
    some [.write .val 0x1021#64, .write .cmd 0x00000021#64, .wait] := by decide +kernel

/-- Log entry 17: a reserved register has no name in text. -/
theorem test_asm_reserved : assembleText "wr reserved, 1".toList = none := by decide +kernel

theorem test_asm_refuses : assembleText "tblrd 256".toList = none ∧ assembleText "cfg.tb left".toList = none := by decide +kernel

/-! ## Witnesses: states and operands that meet the hypotheses of the obligations, one theorem each -/

/-- Every step of a concrete machine that goes on has a next state. -/
def goesOn (r : Result) : Bool :=
  match r with
  | .next _ => true
  | _ => false

theorem exists_next {r : Result} (h : goesOn r = true) : ∃ t, r = .next t := by
  cases r with
  | next t => exact ⟨t, rfl⟩
  | fault f => cases h
  | refused q => cases h

/-- A next state with what `f` sees in it. -/
theorem exists_view {α : Type} {r : Result} {f : State → α} {x : α} (h : view r f = some x) :
    ∃ t, r = .next t ∧ f t = x := by
  cases r with
  | next t => exact ⟨t, rfl, Option.some.inj h⟩
  | fault g => cases h
  | refused q => cases h

/-- The latch of `sent`. -/
def latch (w : Width) (val : BitVec w.bits) (addr len : Nat) (word : CmdWord) : Pending w.bits :=
  { word := word, val := val, addr := BitVec.ofNat 64 addr, len := BitVec.ofNat 64 len, held := [] }

theorem sent_pend (w : Width) (val : BitVec w.bits) (addr len : Nat) (word : CmdWord) :
    (sent w val addr len word).pend = some (latch w val addr len word) := rfl

theorem derive_derived {W : Nat} (d : Dir) (P : BitVec W) : (derive d P).Derived := by
  refine .inr ⟨P, ?_⟩
  cases d <;> rfl

/-- A block with both engines constructed alike, a command in flight and one byte stored. -/
def both (w : Width) (d : Dir) (P val : BitVec w.bits) (addr len : Nat) (word : CmdWord) : State :=
  (withBw (withTb (sent w val addr len word) d P) d P).setMem [(15, 0xA7#8)]

theorem both_wf (w : Width) (d : Dir) (P val : BitVec w.bits) (addr len : Nat) (word : CmdWord) :
    (both w d P val addr len word).Wf where
  size := (by decide : 16 ≤ 2 ^ 64)
  canonical := by show Memory.wf [(15, 0xA7#8)] = true; decide
  inMemory := by
    intro c hc
    have : c = (15, 0xA7#8) := List.mem_singleton.1 hc
    rw [this]
    show 15 < 16
    decide
  bwDerived := derive_derived d P
  tbDerived := derive_derived d P
  tableBuilt := fun _ => rfl
  heldInMemory := by
    intro p hp c hc
    injection hp with hp
    rw [← hp] at hc
    cases hc

/-! ### Encoding -/

theorem witness_DecodeOfEncodeIsTheCommand :
    (Instr.shiftBw 255).wellFormed = true ∧ (Instr.shiftTb 0).wellFormed = true ∧
      (Instr.tblrd 255).wellFormed = true := by decide

theorem witness_EncodeOfDecodeIsTheWord : decode 0xFF05#32 = .instr (.tblrd 255) := by decide

theorem witness_AtMostOneRowMatchesAWord : Row.hits .shiftBw 0xFF04#32 = true := by decide

/-- A word for each bullet of R76, an illegal word in flight, two values of one command word. -/
theorem witness_IllegalWordsAreThoseOfTheReservedEncodings :
    (∃ why, decode 0x00#32 = .illegal why) ∧ (∃ why, decode 0x06#32 = .illegal why) ∧
    (∃ why, decode 0x81#32 = .illegal why) ∧ (∃ why, decode 0x80000002#32 = .illegal why) ∧
    (∃ why, decode 0x25#32 = .illegal why) ∧ (∃ why, decode 0x0103#32 = .illegal why) ∧
    (∃ why, decode 0x15#32 = .illegal why) ∧
    (sent .w8 0 0 0 0x15#32).pend = some (latch .w8 0 0 0 0x15#32) ∧
    (0x100000003#64).setWidth 32 = (0x3#64).setWidth 32 :=
  ⟨⟨_, rfl⟩, ⟨_, rfl⟩, ⟨_, rfl⟩, ⟨_, rfl⟩, ⟨_, rfl⟩, ⟨_, rfl⟩, ⟨_, rfl⟩, rfl, by decide⟩

/-! ### The step -/

theorem witness_StepRunsTheDecodedCommand :
    (sent .w8 0 0 0 0x03#32).pend = some (latch .w8 0 0 0 0x03#32) ∧
    decode (latch .w8 0 0 0 0x03#32).word = .instr .rev ∧
    ((sent .w8 0 0 0 0x03#32).setTurns [.executor, .host]).turns = .executor :: [.host] ∧
    (sent .w8 0 0 0 0x03#32).turns = [] := by
  refine ⟨rfl, by decide, rfl, rfl⟩

theorem witness_StepRunsTheWordPlacedForIt : decodeTableWord 32 0xFF05 = some (.tblrd 255) := by decide

theorem witness_StepDoesTheHostsNextTransaction :
    ((((blk .w8).setTurns [.host]).setProgram [.read .status]).turns = .host :: [] ∧
      (((blk .w8).setTurns [.host]).setProgram [.read .status]).program = .read .status :: []) ∧
    (((blk .w8).setProgram [.read .status]).turns = [] ∧ ((blk .w8).setProgram [.read .status]).pend = none ∧
      ((blk .w8).setProgram [.read .status]).program = .read .status :: []) ∧
    0x2A#64 = lastSeen [.wrote .val 1#64, .saw .result 0x2A#64, .saw .status 1#64] ∧
    (((blk .w8).setTurns [.host]).turns = .host :: [] ∧ ((blk .w8).setTurns [.host]).program = []) ∧
    (((blk .w8).setTurns [.executor]).turns = .executor :: [] ∧ ((blk .w8).setTurns [.executor]).pend = none) ∧
    ((blk .w8).turns = [] ∧ (blk .w8).pend = none ∧ (blk .w8).program = []) :=
  ⟨⟨rfl, rfl⟩, ⟨rfl, rfl, rfl⟩, rfl, ⟨rfl, rfl⟩, ⟨rfl, rfl⟩, rfl, rfl, rfl⟩

theorem witness_OperandWritesCommuteWithCompletion :
    (Reg.val = .val ∨ Reg.val = .addr ∨ Reg.val = .len) ∧ (Reg.addr = .val ∨ Reg.addr = .addr ∨ Reg.addr = .len) ∧
    (Reg.len = .val ∨ Reg.len = .addr ∨ Reg.len = .len) ∧ (both .w8 .lsbFirst 7#8 1#8 15 1 0x02#32).busy = true ∧
    ∃ t, exec .crcBw (both .w8 .lsbFirst 7#8 1#8 15 1 0x02#32) = .next t :=
  ⟨by decide, by decide, by decide, rfl, exists_next (by decide +kernel)⟩

/-- Both outcomes: a write to the last byte, and one past it. -/
theorem witness_OnlyAMemoryWriteOutsideMemoryStops :
    (∃ t, step ((blk .w8).setProgram [.memWrite 15 1#8]) = .next t) ∧
    step ((blk .w8).setProgram [.memWrite 16 1#8]) = .fault (.noSuchAddress 16) :=
  ⟨exists_next (by decide +kernel), rfl⟩

theorem witness_ProgramInsideMemoryNeverStops :
    programInMemory (blk .w8).params.memBytes [.memWrite 15 1#8, .write .cmd 0x15#64] := by
  intro a b h
  simp only [List.mem_cons, HostAction.memWrite.injEq, reduceCtorEq, List.not_mem_nil, or_false] at h
  rw [h.1]
  show 15 < 16
  decide

/-- Two host turns before the executor's. -/
theorem witness_EveryAcceptedCommandCompletes :
    programInMemory (sent .w8 0 0 0 0x03#32).params.memBytes (sent .w8 0 0 0 0x03#32).program ∧
    ((sent .w8 0 0 0 0x03#32).setTurns [.host, .host]).pend = some (latch .w8 0 0 0 0x03#32) ∧
    Turn.reset ∉ ((sent .w8 0 0 0 0x03#32).setTurns [.host, .host]).turns := by
  refine ⟨fun _ _ h => (nomatch h), rfl, ?_⟩
  show Turn.reset ∉ [Turn.host, Turn.host]
  decide

theorem witness_EndedRunStaysAsItIs :
    ((blk .w8).setTurns [.host, .executor]).runEnded = true ∧
    Turn.reset ∉ ((blk .w8).setTurns [.host, .executor]).turns := by
  refine ⟨rfl, ?_⟩
  show Turn.reset ∉ [Turn.host, Turn.executor]
  decide

/-! ### Host access to registers -/

theorem witness_HostWriteOfEachRegister :
    (0x100#64).getLsbD 8 = true ∧ (0xFFFFFFFFFFFFFEFF#64).getLsbD 8 = false ∧
    Reg.rsv15 ∈ [Reg.result, .param, .bwCfg, .bwPoly, .bwMask, .tbCfg, .tbPoly, .tbMask, .rsv7, .rsv11, .rsv15] ∧
    (blk .w8).pend = none ∧ (sent .w8 0 0 0 0x03#32).pend = some (latch .w8 0 0 0 0x03#32) := by
  refine ⟨by decide, by decide, by decide, rfl, rfl⟩

/-- The largest pack offset, 56, in both configuration registers. -/
theorem witness_HostReadOfEachRegister :
    Reg.rsv11 ∈ [Reg.cmd, .rsv7, .rsv11, .rsv15] ∧
    (both .w64 .msbFirst 1#64 0 0 0 0x03#32).bw.pack = 56 ∧ (both .w64 .msbFirst 1#64 0 0 0 0x03#32).bw.pack < 256 ∧
    (both .w64 .msbFirst 1#64 0 0 0 0x03#32).tb.pack < 256 := by
  refine ⟨by decide, rfl, ?_, ?_⟩ <;> (show 56 < 256; decide)

/-- A memory write during a command, and a write to VAL while ADDR is looked at. -/
theorem witness_ReadsHaveNoEffectAndSeeTheStateBeforeTheCommand :
    ((blk .w8).pend = none ∧ Reg.result ≠ .status) ∧
    ((sent .w8 0 0 0 0x03#32).busy = true ∧ Reg.val ≠ .status ∧
      ((((sent .w8 0 0 0 0x03#32).setTurns [.host]).setProgram [.memWrite 15 1#8]).program.head? ≠
          some (.writeBack .val) ∧
        ∀ v : HostWord, (((sent .w8 0 0 0 0x03#32).setTurns [.host]).setProgram [.memWrite 15 1#8]).program.head? ≠
          some (.write .val v)) ∧
      ∃ t, step (((sent .w8 0 0 0 0x03#32).setTurns [.host]).setProgram [.memWrite 15 1#8]) = .next t ∧
        t.busy = true) ∧
    ((((sent .w8 0 0 0 0x03#32).setTurns [.host]).setProgram [.write .val 1#64]).program.head? ≠
        some (.writeBack .addr) ∧
      (∀ v : HostWord, (((sent .w8 0 0 0 0x03#32).setTurns [.host]).setProgram [.write .val 1#64]).program.head? ≠
        some (.write .addr v)) ∧
      ∃ t, step (((sent .w8 0 0 0 0x03#32).setTurns [.host]).setProgram [.write .val 1#64]) = .next t ∧
        t.busy = true) :=
  ⟨⟨rfl, by decide⟩, ⟨rfl, by decide, ⟨nofun, nofun⟩, exists_view (f := State.busy) (by decide +kernel)⟩, nofun,
    nofun, exists_view (f := State.busy) (by decide +kernel)⟩

/-- OVR cleared by a STATUS write and by reset, and set by a CMD write during a command. -/
theorem witness_OverrunIsStickyUntilClearedOrReset :
    (((blk .w8).setOvr true).ovr = true ∧
      ∃ t, step (((blk .w8).setOvr true).setProgram [.write .status 0x100#64]) = .next t ∧ t.ovr = false) ∧
    (∃ t, step (((blk .w8).setOvr true).setTurns [.reset]) = .next t ∧ t.ovr = false) ∧
    ((sent .w8 0 0 0 0x03#32).ovr = false ∧
      ∃ t, step (((sent .w8 0 0 0 0x03#32).setTurns [.host]).setProgram [.write .cmd 0#64]) = .next t ∧
        t.ovr = true) :=
  ⟨⟨rfl, exists_view (f := State.ovr) (by decide +kernel)⟩, exists_view (f := State.ovr) (by decide +kernel), rfl,
    exists_view (f := State.ovr) (by decide +kernel)⟩

/-- ERR changed by a completion and by reset. -/
theorem witness_ErrIsWrittenOnlyAtCompletionOrReset :
    (∃ t, step (sent .w8 0 0 0 0x15#32) = .next t ∧ t.err ≠ (sent .w8 0 0 0 0x15#32).err) ∧
    ∃ t, step (((blk .w8).setErr .range).setTurns [.reset]) = .next t ∧
      t.err ≠ (((blk .w8).setErr .range).setTurns [.reset]).err := by
  constructor
  · obtain ⟨t, h, e⟩ := exists_view (r := step (sent .w8 0 0 0 0x15#32)) (f := State.err) (x := .illegal)
      (by decide +kernel)
    exact ⟨t, h, by rw [e]; decide⟩
  · obtain ⟨t, h, e⟩ := exists_view (r := step (((blk .w8).setErr .range).setTurns [.reset])) (f := State.err)
      (x := .none) (by decide +kernel)
    exact ⟨t, h, by rw [e]; decide⟩

/-- RESULT changed by `rev` and by reset. -/
theorem witness_ResultIsWrittenOnlyAtCompletionOrReset :
    (∃ t, step (sent .w8 1#8 0 0 0x03#32) = .next t ∧
      t.result.toNat ≠ (sent .w8 1#8 0 0 0x03#32).result.toNat) ∧
    ∃ t, step (((blk .w8).setResult 7#8).setTurns [.reset]) = .next t ∧
      t.result.toNat ≠ (((blk .w8).setResult 7#8).setTurns [.reset]).result.toNat := by
  constructor
  · obtain ⟨t, h, e⟩ := exists_view (r := step (sent .w8 1#8 0 0 0x03#32)) (f := fun t => t.result.toNat) (x := 0x80)
      (by decide +kernel)
    exact ⟨t, h, by rw [e]; show 0x80 ≠ 0; decide⟩
  · obtain ⟨t, h, e⟩ := exists_view (r := step (((blk .w8).setResult 7#8).setTurns [.reset]))
      (f := fun t => t.result.toNat) (x := 0) (by decide +kernel)
    exact ⟨t, h, by rw [e]; show 0 ≠ 7; decide⟩

theorem witness_ResetGivesTheResetValues :
    ((both .w8 .lsbFirst 7#8 1#8 15 1 0x02#32).setTurns [.reset]).turns = .reset :: [] := rfl

/-! ### The commands -/

theorem witness_RevReversesValIntoResult :
    opField 0x13#32 = 3#4 ∧ (0x13#32 : CmdWord) ≠ 0x03#32 ∧ (0 : Nat) < (sent .w8 0 0 0 0x03#32).params.W ∧
    (sent .w8 0 0 0 0x03#32).pend = some (latch .w8 0 0 0 0x03#32) := by
  refine ⟨by decide, by decide, ?_, rfl⟩
  show 0 < 8
  decide

/-- The counts 255 and W, a word of no shift command, and each engine constructed and not. -/
theorem witness_ShiftCommandsShiftInTheirEnginesDirection :
    (255 ≤ 255) ∧
    (opField 0x44#32 = 4#4 ∧ ∀ n : Nat, n ≤ 255 → (0x44#32 : CmdWord) ≠ BitVec.ofNat 32 (0x4 + 256 * n) ∧
      (0x44#32 : CmdWord) ≠ BitVec.ofNat 32 (0x14 + 256 * n)) ∧
    ((sent .w8 0 0 0 0x04#32).pend = some (latch .w8 0 0 0 0x04#32) ∧ (sent .w8 0 0 0 0x04#32).bw.valid = false ∧
      (sent .w8 0 0 0 0x04#32).tb.valid = false) ∧
    ((both .w8 .lsbFirst 7#8 1#8 15 1 0x0804#32).pend = some (latch .w8 1#8 15 1 0x0804#32) ∧
      (both .w8 .lsbFirst 7#8 1#8 15 1 0x0804#32).bw.valid = true ∧
      (both .w8 .lsbFirst 7#8 1#8 15 1 0x0804#32).tb.valid = true) := by
  refine ⟨le_refl _, ⟨by decide, fun n hn => ?_⟩, ⟨rfl, rfl, rfl⟩, rfl, rfl, rfl⟩
  constructor <;> (intro h; have := congrArg BitVec.toNat h; simp only [BitVec.toNat_ofNat] at this; omega)

theorem witness_CfgBwConstructsTheBitwiseEngine :
    (opField 0x41#32 = 1#4 ∧ engField 0x41#32 = 0#1 ∧ (0x41#32 : CmdWord) ∉ [0x00000001#32, 0x00000021#32]) ∧
    (both .w64 .lsbFirst 7#64 1#64 15 1 0x01#32).pend = some (latch .w64 1#64 15 1 0x01#32) :=
  ⟨by decide, rfl⟩

theorem witness_CfgTbConstructsTheTableEngine :
    (opField 0x0111#32 = 1#4 ∧ engField 0x0111#32 = 1#1 ∧ (0x0111#32 : CmdWord) ∉ [0x00000011#32, 0x00000031#32]) ∧
    (both .w8 .lsbFirst 7#8 1#8 15 1 0x31#32).pend = some (latch .w8 1#8 15 1 0x31#32) :=
  ⟨by decide, rfl⟩

/-- Unconstructed, past the end by one byte, up to the end, and empty anywhere. -/
theorem witness_CrcBwFoldsTheBytesOfTheRange :
    (opField 0x22#32 = 2#4 ∧ engField 0x22#32 = 0#1 ∧ (0x22#32 : CmdWord) ≠ 0x02#32) ∧
    ((sent .w8 0 0 0 0x02#32).pend = some (latch .w8 0 0 0 0x02#32) ∧ (sent .w8 0 0 0 0x02#32).bw.valid = false) ∧
    ((both .w8 .lsbFirst 7#8 1#8 15 2 0x02#32).pend = some (latch .w8 1#8 15 2 0x02#32) ∧
      (both .w8 .lsbFirst 7#8 1#8 15 2 0x02#32).bw.valid = true ∧ (latch .w8 1#8 15 2 0x02#32).len ≠ 0 ∧
      16 < (latch .w8 1#8 15 2 0x02#32).addr.toNat + (latch .w8 1#8 15 2 0x02#32).len.toNat) ∧
    ((latch .w8 1#8 15 1 0x02#32).addr.toNat + (latch .w8 1#8 15 1 0x02#32).len.toNat ≤ 16) ∧
    (latch .w8 1#8 0xFFFFFFFFFFFFFFFF 0 0x02#32).len = 0 := by
  refine ⟨by decide, ⟨rfl, rfl⟩, ⟨rfl, rfl, by decide, by decide⟩, by decide, by decide⟩

theorem witness_CrcTbFoldsTheBytesOfTheRange :
    (opField 0x0112#32 = 2#4 ∧ engField 0x0112#32 = 1#1 ∧ (0x0112#32 : CmdWord) ≠ 0x12#32) ∧
    ((sent .w8 0 0 0 0x12#32).pend = some (latch .w8 0 0 0 0x12#32) ∧ (sent .w8 0 0 0 0x12#32).tb.valid = false) ∧
    ((both .w8 .lsbFirst 7#8 1#8 15 2 0x12#32).pend = some (latch .w8 1#8 15 2 0x12#32) ∧
      (both .w8 .lsbFirst 7#8 1#8 15 2 0x12#32).tb.valid = true ∧ (latch .w8 1#8 15 2 0x12#32).len ≠ 0 ∧
      16 < (latch .w8 1#8 15 2 0x12#32).addr.toNat + (latch .w8 1#8 15 2 0x12#32).len.toNat) ∧
    ((latch .w8 1#8 15 1 0x12#32).addr.toNat + (latch .w8 1#8 15 1 0x12#32).len.toNat ≤ 16) ∧
    (latch .w8 1#8 0xFFFFFFFFFFFFFFFF 0 0x12#32).len = 0 := by
  refine ⟨by decide, ⟨rfl, rfl⟩, ⟨rfl, rfl, by decide, by decide⟩, by decide, by decide⟩

theorem witness_TblrdReadsTheEntry :
    (opField 0x15#32 = 5#4 ∧ ∀ i : Fin 256, (0x15#32 : CmdWord) ≠ BitVec.ofNat 32 (0x5 + 256 * i.val)) ∧
    ((sent .w8 0 0 0 0x05#32).pend = some (latch .w8 0 0 0 0x05#32) ∧ (sent .w8 0 0 0 0x05#32).tb.valid = false) ∧
    ((both .w8 .lsbFirst 7#8 1#8 15 1 0xFF05#32).pend = some (latch .w8 1#8 15 1 0xFF05#32) ∧
      (both .w8 .lsbFirst 7#8 1#8 15 1 0xFF05#32).tb.valid = true) := by
  refine ⟨⟨by decide, fun i h => ?_⟩, ⟨rfl, rfl⟩, rfl, rfl⟩
  have := congrArg BitVec.toNat h
  simp only [BitVec.toNat_ofNat] at this
  omega

/-- A command that writes an engine, one that writes RESULT, and one that fails. -/
theorem witness_CommandsWriteOnlyWhatTheyMay :
    (∃ t, exec (.cfgTb .lsbFirst) (both .w8 .msbFirst 7#8 1#8 15 1 0x31#32) = .next t) ∧
    (∃ t, exec .crcBw (both .w8 .msbFirst 7#8 1#8 15 1 0x02#32) = .next t) ∧
    ∃ t, exec .crcTb (sent .w8 0 0 0 0x12#32) = .next t ∧ t.err = .nocfg :=
  ⟨exists_next (by decide +kernel), exists_next (by decide +kernel), exists_view (f := State.err) (by decide +kernel)⟩

theorem witness_BlockLeavesEveryByteOfMemory :
    (∃ t, exec .crcBw (both .w8 .msbFirst 7#8 1#8 15 1 0x02#32) = .next t) ∧
    (∃ t, (both .w8 .msbFirst 7#8 1#8 15 1 0x15#32).executorTurn = .next t) ∧
    ∃ t, (both .w8 .msbFirst 7#8 1#8 15 1 0x02#32).takeTurn .reset = .next t :=
  ⟨exists_next (by decide +kernel), exists_next (by decide +kernel), exists_next (by decide +kernel)⟩

/-! ### Errors -/

theorem witness_FailedCommandChangesOnlyErr :
    (sent .w8 0 0 0 0x15#32).busy = true ∧
    ∃ t, (sent .w8 0 0 0 0x15#32).executorTurn = .next t ∧ t.err ≠ .none := by
  refine ⟨rfl, ?_⟩
  obtain ⟨t, h, e⟩ := exists_view (r := (sent .w8 0 0 0 0x15#32).executorTurn) (f := State.err) (x := .illegal)
    (by decide +kernel)
  exact ⟨t, h, by rw [e]; decide⟩

/-- Each of the four codes. -/
theorem witness_ErrCodeOfEachCompletion :
    (sent .w8 0 0 0 0x15#32).pend = some (latch .w8 0 0 0 0x15#32) ∧
    (∃ t, (sent .w8 0 0 0 0x15#32).executorTurn = .next t ∧ t.err = .illegal) ∧
    decode (latch .w8 0 0 0 0x0105#32).word = .instr (.tblrd 1) ∧
    (∃ t, (sent .w8 0 0 0 0x0105#32).executorTurn = .next t ∧ t.err = .nocfg) ∧
    (∃ t, (both .w8 .lsbFirst 7#8 1#8 15 2 0x12#32).executorTurn = .next t ∧ t.err = .range) ∧
    ∃ t, (both .w8 .lsbFirst 7#8 1#8 15 1 0x12#32).executorTurn = .next t ∧ t.err = .none :=
  ⟨rfl, exists_view (f := State.err) (by decide +kernel), by decide, exists_view (f := State.err) (by decide +kernel),
    exists_view (f := State.err) (by decide +kernel), exists_view (f := State.err) (by decide +kernel)⟩

/-- V-ERR-21, and the same for the table engine. -/
theorem witness_ErrorPriority :
    (sent .w8 0 10 7 0x02#32).pend = some (latch .w8 0 10 7 0x02#32) ∧
    decode (latch .w8 0 10 7 0x02#32).word = .instr .crcBw ∧ (sent .w8 0 10 7 0x02#32).bw.valid = false ∧
    (latch .w8 0 10 7 0x02#32).len ≠ 0 ∧
    16 < (latch .w8 0 10 7 0x02#32).addr.toNat + (latch .w8 0 10 7 0x02#32).len.toNat ∧
    decode (latch .w8 0 10 7 0x12#32).word = .instr .crcTb ∧ (sent .w8 0 10 7 0x12#32).tb.valid = false ∧
    ∃ why, decode (latch .w8 0 10 7 0x22#32).word = .illegal why :=
  ⟨rfl, by decide, rfl, by decide, by decide, by decide, rfl, _, rfl⟩

/-! ### Data memory and the read port -/

theorem witness_HostMemWriteStoresOneByte :
    Memory.wf (both .w8 .lsbFirst 7#8 1#8 15 1 0x02#32).mem = true ∧
    15 < (both .w8 .lsbFirst 7#8 1#8 15 1 0x02#32).params.memBytes ∧
    (both .w8 .lsbFirst 7#8 1#8 15 1 0x02#32).pend = some (latch .w8 1#8 15 1 0x02#32) ∧ (blk .w8).pend = none ∧
    (both .w8 .lsbFirst 7#8 1#8 15 1 0x02#32).params.memBytes ≤ 16 := by
  refine ⟨(both_wf _ _ _ _ _ _ _).canonical, ?_, rfl, rfl, ?_⟩
  · show 15 < 16
    decide
  · exact le_refl 16

/-- The last byte of data memory, and other contents outside the one-byte range. -/
theorem witness_EveryReadIsInsideMemory :
    (rangeLegal 16 10#64 6#64 = true ∧ 5 < (6#64 : BitVec 64).toNat ∧ rangeLegal 16 16#64 0#64 = true) ∧
    (both .w8 .lsbFirst 7#8 1#8 15 1 0x02#32).pend = some (latch .w8 1#8 15 1 0x02#32) ∧
    (∃ t, exec .crcBw (both .w8 .lsbFirst 7#8 1#8 15 1 0x02#32) = .next t) ∧
    (∀ k, k < (latch .w8 1#8 15 1 0x02#32).len.toNat → (latch .w8 1#8 15 1 0x02#32).addr.toNat + k < 16 →
      Memory.read [(0, 0x55#8), (15, 0xA7#8)] ((latch .w8 1#8 15 1 0x02#32).addr.toNat + k) =
        Memory.read (both .w8 .lsbFirst 7#8 1#8 15 1 0x02#32).mem ((latch .w8 1#8 15 1 0x02#32).addr.toNat + k)) ∧
    Memory.read [(0, 0x55#8), (15, 0xA7#8)] 0 ≠ Memory.read (both .w8 .lsbFirst 7#8 1#8 15 1 0x02#32).mem 0 := by
  refine ⟨by decide, rfl, exists_next (by decide +kernel), fun k hk _ => ?_, by decide⟩
  have : k = 0 := by
    have : k < 1 := hk
    omega
  rw [this]
  rfl

/-- One host write to a byte of the range, during a `crc.bw`. -/
theorem witness_ReadsReturnAValueHeldDuringTheCommand :
    Memory.wf (sent .w8 0 0 2 0x02#32).mem = true ∧ (latch .w8 0 0 2 0x02#32).held = [] ∧
    ((((sent .w8 0 0 2 0x02#32).setProgram [.memWrite 1 0x55#8]).setTurns [.host]).turns =
      List.replicate 1 Turn.host ++ []) ∧
    (((sent .w8 0 0 2 0x02#32).setProgram [.memWrite 1 0x55#8]).setTurns [.host]).pend =
      some (latch .w8 0 0 2 0x02#32) ∧
    ∃ t, Host.Core.run core 1 (((sent .w8 0 0 2 0x02#32).setProgram [.memWrite 1 0x55#8]).setTurns [.host]) =
      .next t :=
  ⟨rfl, rfl, rfl, rfl, _, rfl⟩

/-- A byte outside the range has been written during the command. -/
theorem witness_CrcOverAKeptBufferReadsTheStoredBytes :
    ∃ (s : State) (p : Pending s.params.W), s.pend = some p ∧ s.BufferKept ∧ s.bw.valid = true ∧ s.tb.valid = true ∧
      p.held ≠ [] ∧ p.len ≠ 0 ∧ p.addr.toNat + p.len.toNat ≤ s.params.memBytes := by
  let p : Pending 8 := { latch .w8 1#8 14 2 0x02#32 with held := [(13, 0x55#8)] }
  refine ⟨(both .w8 .lsbFirst 7#8 1#8 14 2 0x02#32).setPend (some p), p, rfl, ?_, rfl, rfl, by decide, by decide, ?_⟩
  · intro q hq c hc
    injection hq with hq
    rw [← hq] at hc ⊢
    have hc' : c = (13, 0x55#8) := List.mem_singleton.1 hc
    rw [hc']
    show ¬ (14 ≤ 13 ∧ _)
    omega
  · show 14 + 2 ≤ 16
    decide

/-! ### Laws of the units -/

theorem witness_DirectionalShiftLaws : Width.bits .w8 ≤ 8 ∧ Width.bits .w64 ≤ 255 := by decide

/-- The largest register below the top byte, and one whose low byte is 0. -/
theorem witness_BitStepsAreLinear :
    (0xFF#16 : BitVec (Width.bits .w16)).toNat < 2 ^ (Width.bits .w16 - 8) ∧
    (0xFF00#16 : BitVec (Width.bits .w16)).toNat % 256 = 0 ∧
    (0#8 : BitVec (Width.bits .w8)).toNat < 2 ^ (Width.bits .w8 - 8) := by decide

theorem witness_TableEngineEqualsBitwiseEngine :
    (both .w16 .msbFirst 0x1021#16 0 15 1 0x12#32).Wf ∧
    (both .w16 .msbFirst 0x1021#16 0 15 1 0x12#32).bw = (both .w16 .msbFirst 0x1021#16 0 15 1 0x12#32).tb ∧
    (both .w16 .msbFirst 0x1021#16 0 15 1 0x12#32).bw.valid = true :=
  ⟨both_wf _ _ _ _ _ _ _, rfl, rfl⟩

/-- Entry 0xA7, whose byte stands at address 15. -/
theorem witness_TableEntryIsTheCrcOfItsIndex :
    (both .w16 .msbFirst 0x1021#16 0 15 1 0x12#32).Wf ∧
    (both .w16 .msbFirst 0x1021#16 0 15 1 0x12#32).tb.valid = true ∧
    (both .w16 .msbFirst 0x1021#16 0 15 1 0x12#32).pend = some (latch .w16 0 15 1 0x12#32) ∧
    (both .w16 .msbFirst 0x1021#16 0 15 1 0x12#32).BufferKept ∧
    (both .w16 .msbFirst 0x1021#16 0 15 1 0x12#32).bw = (both .w16 .msbFirst 0x1021#16 0 15 1 0x12#32).tb ∧
    (latch .w16 0 15 1 0x12#32).val = 0 ∧ (latch .w16 0 15 1 0x12#32).len = 1 ∧
    (latch .w16 0 15 1 0x12#32).addr.toNat < 16 ∧
    Memory.read (both .w16 .msbFirst 0x1021#16 0 15 1 0x12#32).mem 15 = BitVec.ofNat 8 0xA7 := by
  refine ⟨both_wf _ _ _ _ _ _ _, rfl, rfl, ?_, rfl, rfl, by decide, by decide, rfl⟩
  intro q hq c hc
  injection hq with hq
  rw [← hq] at hc
  cases hc

theorem witness_SeedChainingAcrossAdjacentRanges :
    (both .w16 .msbFirst 0x1021#16 0 0 0 0x12#32).params.legal ∧
    (both .w16 .msbFirst 0x1021#16 0 0 0 0x12#32).bw.valid = true ∧
    (both .w16 .msbFirst 0x1021#16 0 0 0 0x12#32).tb.valid = true ∧
    4 + 7 + 5 ≤ (both .w16 .msbFirst 0x1021#16 0 0 0 0x12#32).params.memBytes ∧ 4 < 2 ^ 64 ∧ 7 + 5 < 2 ^ 64 := by
  refine ⟨(both_wf _ _ _ _ _ _ _).size, rfl, rfl, ?_, by decide, by decide⟩
  exact le_refl 16

/-! ### Invariants and whole-machine rules -/

/-- The largest memory, and the block of `State.reset`. -/
theorem witness_ResetIsWellFormed :
    ({ width := .w8, memBytes := 2 ^ 64 } : Params).legal ∧ ({ width := .w64, memBytes := 0 } : Params).legal ∧
    Config.resetParams.legal :=
  ⟨le_refl _, Nat.zero_le _, le_refl _⟩

theorem witness_StepKeepsWellFormed :
    (both .w8 .lsbFirst 7#8 1#8 15 1 0x11#32).Wf ∧ ∃ t, step (both .w8 .lsbFirst 7#8 1#8 15 1 0x11#32) = .next t :=
  ⟨both_wf _ _ _ _ _ _ _, exists_next (by decide +kernel)⟩

theorem witness_ParametersNeverChange : ∃ t, step ((blk .w64).setTurns [.reset]) = .next t :=
  exists_next (by decide +kernel)

/-- A `crc.bw` completes: no configure command in flight, no reset. And a host turn while `cfg.bw` is in flight. -/
theorem witness_ConfigurationIsWrittenOnlyByConfigureAndReset :
    (∃ t, step (((both .w8 .lsbFirst 7#8 1#8 15 1 0x01#32).setTurns [.host]).setProgram [.memWrite 0 1#8]) = .next t ∧
      t.busy = true) ∧
    (((both .w8 .lsbFirst 7#8 1#8 15 1 0x01#32).setTurns [.host]).turns.head? ≠ some .reset) ∧
    (∃ t, step (both .w8 .lsbFirst 7#8 1#8 15 1 0x02#32) = .next t) ∧
    (both .w8 .lsbFirst 7#8 1#8 15 1 0x02#32).turns.head? ≠ some .reset ∧
    (both .w8 .lsbFirst 7#8 1#8 15 1 0x02#32).pend = some (latch .w8 1#8 15 1 0x02#32) ∧
    ∀ d, decode (latch .w8 1#8 15 1 0x02#32).word ≠ .instr (.cfgBw d) ∧
      decode (latch .w8 1#8 15 1 0x02#32).word ≠ .instr (.cfgTb d) := by
  refine ⟨exists_view (f := State.busy) (by decide +kernel), nofun, exists_next (by decide +kernel), nofun, rfl, ?_⟩
  rintro ⟨⟩ <;> decide

/-- A `cfg.tb` completes on an unconstructed engine, and a host write faults. -/
theorem witness_TableOfAnUnconstructedEngineCannotBeObserved :
    (sent .w8 7#8 0 0 0x11#32).tb.valid = false ∧
    (∃ t, step (sent .w8 7#8 0 0 0x11#32) = .next t ∧ t.tb.valid = true) ∧
    (blk .w8).tb.valid = false ∧ step ((blk .w8).setProgram [.memWrite 16 1#8]) = .fault (.noSuchAddress 16) :=
  ⟨rfl, exists_view (f := fun t => t.tb.valid) (by decide +kernel), rfl, rfl⟩

theorem witness_AssemblerEncodesCommandLines : 255 ≤ 255 ∧ 255 < 256 := by decide

theorem witness_PseudoInstructionsExpandInOrder : 2 ^ 64 - 1 < 2 ^ 64 ∧ 255 ≤ 255 ∧ 255 < 256 ∧ 2 ^ 64 ≤ 2 ^ 64 := by
  decide

end Sys2Proof.Tests
end

/-! SUPPORT. What a host write does to each register, one equation per case of `10_state.md` R23, and the obligation
they make up. -/

namespace Sys2Proof.Machine

variable {s : State}

theorem regWrite_val (s : State) (v : HostWord) :
    s.regWrite .val v = { s with val := v.setWidth s.params.W } := rfl

theorem regWrite_addr (s : State) (v : HostWord) : s.regWrite .addr v = { s with addr := v } := rfl

theorem regWrite_len (s : State) (v : HostWord) : s.regWrite .len v = { s with len := v } := rfl

/-- R29: bit 8 of the written value clears OVR. -/
theorem regWrite_status_of_bit {v : HostWord} (h : v.getLsbD 8 = true) :
    s.regWrite .status v = { s with ovr := false } :=
  if_pos h

theorem regWrite_status_of_not_bit {v : HostWord} (h : v.getLsbD 8 = false) : s.regWrite .status v = s :=
  if_neg (Bool.eq_false_iff.mp h)

/-- The registers whose writes are ignored: the read-only and the reserved ones. -/
theorem regWrite_ignored {r : Reg} (v : HostWord)
    (h : r ∈ [Reg.result, .param, .bwCfg, .bwPoly, .bwMask, .tbCfg, .tbPoly, .tbMask, .rsv7, .rsv11, .rsv15]) :
    s.regWrite r v = s := by
  cases r with
  | cmd | val | addr | len | status => simp at h
  | result | param | rsv7 | bwCfg | bwPoly | bwMask | rsv11 | tbCfg | tbPoly | tbMask | rsv15 => rfl

/-- R191: with no command in flight a CMD write is accepted. -/
theorem regWrite_cmd_of_idle (h : s.pend = none) (v : HostWord) :
    s.regWrite .cmd v = s.accept (v.setWidth 32) := by
  simp [State.regWrite, State.writeCmd, h]

/-- R191: with a command in flight a CMD write is dropped and OVR is set. -/
theorem regWrite_cmd_of_busy {p : Pending s.params.W} (h : s.pend = some p) (v : HostWord) :
    s.regWrite .cmd v = { s with ovr := true } := by
  simp [State.regWrite, State.writeCmd, h, State.setOvr]

/-- Settles O16, one register's equation at a time. -/
theorem hostWriteOfEachRegister : Obligations.HostWriteOfEachRegister := by
  intro s v
  exact ⟨⟨v.setWidth s.params.W, BitVec.toNat_setWidth .., regWrite_val s v⟩, regWrite_addr s v, regWrite_len s v,
    regWrite_status_of_bit, regWrite_status_of_not_bit, fun _ => regWrite_ignored v,
    fun h => regWrite_cmd_of_idle h v, fun _ h => regWrite_cmd_of_busy h v⟩

end Sys2Proof.Machine

/-! SUPPORT. All that the completion of a command can change, and that no step changes the parameters
(`00_scope.md` R6, `10_state.md` R33). -/

namespace Sys2Proof.Machine

variable {s t : State}

/-! ## The fields a completion can reach -/

/-- `t` differs from `s` at most in the fields a completing command may write (`70_reset_and_hazards.md` R192):
RESULT, ERR, the two configurations, the table, the latch and the count of draws. -/
def State.CompletesTo (s t : State) : Prop :=
  ∃ x e b c T p d,
    t = { s with result := x, err := e, bw := b, tb := c, table := T, pend := p, draws := d }

theorem State.CompletesTo.refl (s : State) : s.CompletesTo s :=
  ⟨s.result, s.err, s.bw, s.tb, s.table, s.pend, s.draws, rfl⟩

theorem State.CompletesTo.params_eq (h : s.CompletesTo t) : t.params = s.params := by
  obtain ⟨x, e, b, c, T, p, d, rfl⟩ := h
  rfl

theorem raiseError_completesTo (s : State) (e : ErrCode) : ∃ t, s.raiseError e = .next t ∧ s.CompletesTo t :=
  ⟨_, s.raiseError_eq e, s.result, e, s.bw, s.tb, s.table, none, s.draws, rfl⟩

theorem completeWith_completesTo (s : State) (v : BitVec s.params.W) :
    ∃ t, s.completeWith v = .next t ∧ s.CompletesTo t :=
  ⟨_, s.completeWith_eq v, v, .none, s.bw, s.tb, s.table, none, s.draws, rfl⟩

theorem runShift_completesTo {p : Pending s.params.W} (hp : s.pend = some p) (c : EngineCfg s.params.W) (n : Nat) :
    ∃ t, s.runShift c n = .next t ∧ s.CompletesTo t := by
  rw [State.runShift_eq hp]
  split
  · exact completeWith_completesTo s _
  · exact raiseError_completesTo s _

theorem runCrc_completesTo {p : Pending s.params.W} (hp : s.pend = some p) (c : EngineCfg s.params.W)
    (f : BitVec s.params.W → List Byte → BitVec s.params.W) :
    ∃ t, s.runCrc c f = .next t ∧ s.CompletesTo t := by
  rw [State.runCrc_eq hp]
  split
  · exact raiseError_completesTo s _
  split
  · exact raiseError_completesTo s _
  · exact ⟨_, State.completeWith_eq _ _, _, .none, s.bw, s.tb, s.table, none, _, rfl⟩

/-- Every command answers a next state, in every state, and writes no field but those of a completion. -/
theorem exec_completesTo (i : Instr) (s : State) : ∃ t, exec i s = .next t ∧ s.CompletesTo t := by
  cases hp : s.pend with
  | none => exact ⟨s, exec_of_idle i hp, .refl s⟩
  | some p =>
    cases i with
    | cfgBw d => exact ⟨_, State.withPending_some hp _, s.result, .none, _, s.tb, s.table, none, s.draws, rfl⟩
    | cfgTb d => exact ⟨_, State.withPending_some hp _, s.result, .none, s.bw, _, _, none, s.draws, rfl⟩
    | crcBw => exact runCrc_completesTo hp s.bw _
    | crcTb => exact runCrc_completesTo hp s.tb _
    | shiftBw n => exact runShift_completesTo hp s.bw n
    | shiftTb n => exact runShift_completesTo hp s.tb n
    | rev =>
      show ∃ t, s.withPending _ = .next t ∧ s.CompletesTo t
      rw [State.withPending_some hp]
      exact completeWith_completesTo s _
    | tblrd k =>
      show ∃ t, s.withPending _ = .next t ∧ s.CompletesTo t
      rw [State.withPending_some hp]
      split
      · exact completeWith_completesTo s _
      · exact raiseError_completesTo s _

/-- The executor's turn always answers a next state, and writes no field but those of a completion. -/
theorem executorTurn_completesTo (s : State) : ∃ t, s.executorTurn = .next t ∧ s.CompletesTo t := by
  obtain ⟨-, he⟩ | ⟨p, i, -, -, he⟩ | ⟨p, why, -, -, he⟩ := executorTurn_cases s <;> rw [he]
  · exact ⟨s, rfl, .refl s⟩
  · exact exec_completesTo i s
  · exact raiseError_completesTo s .illegal

/-! ## The parameters -/

theorem executorTurn_params (h : s.executorTurn = .next t) : t.params = s.params := by
  obtain ⟨u, hu, hc⟩ := executorTurn_completesTo s
  rw [hu] at h
  cases h
  exact hc.params_eq

theorem hostTurn_params (h : s.hostTurn = .next t) : t.params = s.params := by
  obtain ⟨x, a, l, o, p, m, pr, no, rfl, -⟩ := hostTurn_frame h
  rfl

theorem takeTurn_params {a : Turn} (h : s.takeTurn a = .next t) : t.params = s.params := by
  cases a with
  | host => exact hostTurn_params h
  | executor => exact executorTurn_params h
  | reset =>
    cases h
    exact State.resetBlock_params s

/-- R6: no step changes W or MEM_BYTES. -/
theorem step_params (h : step s = .next t) : t.params = s.params := by
  rw [step_eq_takeTurn] at h
  exact (takeTurn_params h).trans (State.setTurns_params s _)

/-! ## PARAM -/

/-- R33: `PARAM[7:0] = W` and the bits above are 0, for W is at most 64. -/
theorem regRead_param_toNat (s : State) : (s.regRead .param).toNat = s.params.W := by
  have hW : s.params.W ≤ 64 := s.params.width.le_sixtyFour
  exact (BitVec.toNat_ofNat ..).trans (Nat.mod_eq_of_lt (by omega))

/-- PARAM depends on the parameters alone. -/
theorem regRead_param_congr (h : t.params = s.params) : t.regRead .param = s.regRead .param :=
  congrArg (fun p : Params => BitVec.ofNat 64 p.W) h

/-- Settles O52: each agent's turn keeps the parameters, so every step does, and PARAM is read from them. -/
theorem parametersNeverChange : Obligations.ParametersNeverChange := by
  intro s
  refine ⟨regRead_param_toNat s, fun v => regWrite_ignored v (by simp), fun t h => ?_⟩
  have hp : t.params = s.params := step_params h
  exact ⟨hp, regRead_param_congr hp⟩

end Sys2Proof.Machine

/-! SUPPORT. What `crc.*` does in each of its cases (`42_bitwise_engine.md` R126), which words are `crc.bw`, and that
the block never writes data memory (`20_memory.md` R53). -/

namespace Sys2Proof

/-! ## Words of a row -/

/-- No two rows of R74 have the same OP and ENG. -/
theorem Row.eq_of_op_eng {r r' : Row} : r.op = r'.op → r.eng = r'.eng → r = r' := by
  cases r <;> cases r' <;> decide

/-- R76: a word with the OP and ENG of a row that does not match it is illegal. -/
theorem decode_illegal_of_row {w : CmdWord} {r : Row} (ho : opField w = r.op) (he : engField w = r.eng)
    (h : r.hits w = false) : ∃ why, decode w = .illegal why := by
  obtain ⟨r', hr', -⟩ | ⟨-, hd⟩ := decode_cases w
  · obtain ⟨-, -, -, -, he', ho'⟩ := (Row.hits_iff r' w).1 hr'
    have hrow : r' = r := Row.eq_of_op_eng (ho'.symm.trans ho) (he'.symm.trans he)
    rw [hrow, h] at hr'
    cases hr'
  · exact ⟨_, hd⟩

/-- A row whose mask is all ones matches one word. -/
theorem Row.hits_iff_of_mask {r : Row} (h : r.mask = BitVec.allOnes 32) (w : CmdWord) :
    r.hits w = true ↔ w = r.pattern := by
  rw [Row.hits, h, BitVec.and_allOnes, beq_iff_eq]

end Sys2Proof

namespace Sys2Proof.Machine

variable {s t : State}

/-! ## The cases of `crc.*` -/

section RunCrc

variable {p : Pending s.params.W} {c : EngineCfg s.params.W} {f : BitVec s.params.W → List Byte → BitVec s.params.W}

theorem runCrc_of_not_valid (hp : s.pend = some p) (hc : c.valid = false) :
    s.runCrc c f = .next { s with err := .nocfg, pend := none } := by
  rw [State.runCrc_eq hp, hc]
  rfl

theorem runCrc_of_past_end (hp : s.pend = some p) (hc : c.valid = true) (hl : p.len ≠ 0)
    (h : s.params.memBytes < p.addr.toNat + p.len.toNat) :
    s.runCrc c f = .next { s with err := .range, pend := none } := by
  have hr : rangeLegal s.params.memBytes p.addr p.len = false := by
    rw [← Bool.not_eq_true, rangeLegal_eq_true]
    exact not_or.2 ⟨hl, Nat.not_le_of_lt h⟩
  rw [State.runCrc_eq hp, hc, hr]
  rfl

theorem runCrc_of_legal (hp : s.pend = some p) (hc : c.valid = true)
    (h : p.len = 0 ∨ p.addr.toNat + p.len.toNat ≤ s.params.memBytes) :
    s.runCrc c f = .next { s with
      result := f p.val (s.dataBytes p), err := .none, pend := none, draws := s.draws + p.len.toNat } := by
  rw [State.runCrc_eq hp, hc, rangeLegal_eq_true.2 h]
  rfl

end RunCrc

/-- Settles O29: only 0x00000002 matches the row of `crc.bw`, and its meaning has the three cases of `runCrc`. -/
theorem crcBwFoldsTheBytesOfTheRange : Obligations.CrcBwFoldsTheBytesOfTheRange := by
  refine ⟨decode_of_find (r := .crcBw) (by decide), fun w ho he hw => ?_, fun s p hp => ⟨?_, ?_, ?_⟩⟩
  · have hmiss : Row.hits .crcBw w = false := by
      rw [← Bool.not_eq_true, Row.hits_iff_of_mask rfl]
      exact hw
    exact decode_illegal_of_row (r := .crcBw) ho he hmiss
  · exact runCrc_of_not_valid hp
  · exact runCrc_of_past_end hp
  · intro hv hr
    exact ⟨s.dataBytes p, s.dataBytes_length p, fun _ => s.dataBytes_getElem? p, runCrc_of_legal hp hv hr⟩

/-! ## The block leaves data memory -/

theorem State.CompletesTo.mem_eq (h : s.CompletesTo t) : t.mem = s.mem := by
  obtain ⟨x, e, b, c, T, p, d, rfl⟩ := h
  rfl

/-- The one next state of an outcome is the one its completion lemma speaks of. -/
theorem completesTo_of_next {r : Result} (hr : ∃ u, r = .next u ∧ s.CompletesTo u) (h : r = .next t) :
    s.CompletesTo t := by
  obtain ⟨u, rfl, hc⟩ := hr
  cases h
  exact hc

theorem exec_mem {i : Instr} (h : exec i s = .next t) : t.mem = s.mem :=
  (completesTo_of_next (exec_completesTo i s) h).mem_eq

theorem executorTurn_mem (h : s.executorTurn = .next t) : t.mem = s.mem :=
  (completesTo_of_next (executorTurn_completesTo s) h).mem_eq

theorem regWrite_mem (s : State) (r : Reg) (v : HostWord) : (s.regWrite r v).mem = s.mem := by
  obtain ⟨x, a, l, o, p, he, -⟩ := regWrite_frame s r v
  rw [he]

theorem takeTurn_reset_mem (h : s.takeTurn .reset = .next t) : t.mem = s.mem := by
  cases h
  exact State.resetBlock_mem s

/-- Settles O33: completions, register writes and reset leave the memory list itself, so every byte of it. -/
theorem blockLeavesEveryByteOfMemory : Obligations.BlockLeavesEveryByteOfMemory := by
  intro s t a
  have read_eq {u : State} (h : u.mem = s.mem) : Memory.read u.mem a = Memory.read s.mem a := by rw [h]
  exact ⟨fun _ h => read_eq (exec_mem h), fun h => read_eq (executorTurn_mem h),
    fun r v => read_eq (regWrite_mem s r v), fun h => read_eq (takeTurn_reset_mem h)⟩

end Sys2Proof.Machine

/-! SUPPORT. The values a byte holds while a command is in flight (`20_memory.md` R59): what one host turn adds to those
the latch remembers, and that a read returns one of them. -/

namespace Sys2Proof.Machine

variable {s t : State}

/-! ## A read of a byte -/

/-- R59: `MemRead(a, 1)` returns a member of `S(a)`, whatever the draw. -/
theorem memRead_mem_heldValues (s : State) (p : Pending s.params.W) (k a : Nat) :
    s.memRead p k a ∈ s.heldValues p a := by
  unfold State.memRead
  split
  next v hv => simp [hv]
  next =>
    have hpos : 0 < (s.heldValues p a).length := List.length_pos_of_mem (State.mem_heldValues.2 (.inl rfl))
    have hlt := Nat.mod_lt (Config.draw (s.draws + k)) hpos
    rw [List.getD_eq_getElem _ _ hlt]
    exact List.getElem_mem hlt

/-! ## One turn of the host with a command in flight -/

/-- The host moves from `s` to `t` by something other than a memory write: with a command in flight, data memory and the
latch stay. -/
def State.KeepsLatchTo (s t : State) : Prop :=
  ∃ x a l o pr no, t = { s with val := x, addr := a, len := l, ovr := o, program := pr, notes := no }

/-- The host moves from `s`, where `p` is in flight, to `t` by a memory write: the latch remembers what the byte
held. -/
def State.StoresTo (s : State) (p : Pending s.params.W) (t : State) : Prop :=
  ∃ a b pr, t = { s with
    mem := Memory.write s.mem a b
    pend := some { p with held := p.held.insert (a, Memory.read s.mem a) }
    program := pr }

theorem hostWrite_keepsLatchTo {p : Pending s.params.W} (hp : s.pend = some p) (rest : List HostAction) (r : Reg)
    (v : HostWord) : s.KeepsLatchTo ((s.setProgram rest).hostWrite r v) := by
  obtain ⟨x, a, l, o, q, he, -, -, -, hq⟩ := regWrite_frame (s.setProgram rest) r v
  have hq : q = s.pend := hq (Option.isSome_iff_ne_none.1 (Option.isSome_of_eq_some hp))
  refine ⟨x, a, l, o, rest, .wrote r v :: s.notes, ?_⟩
  unfold State.hostWrite
  rw [he, hq]
  rfl

theorem hostTurn_cases_of_busy {p : Pending s.params.W} (hp : s.pend = some p) (h : s.hostTurn = .next t) :
    s.KeepsLatchTo t ∨ s.StoresTo p t := by
  cases hpr : s.program with
  | nil =>
    rw [hostTurn_nil hpr] at h
    cases h
    exact .inl ⟨s.val, s.addr, s.len, s.ovr, s.program, s.notes, rfl⟩
  | cons x rest =>
    rw [hostTurn_cons hpr] at h
    cases x with
    | write r v =>
      cases h
      exact .inl (hostWrite_keepsLatchTo hp rest r v)
    | writeBack r =>
      cases h
      exact .inl (hostWrite_keepsLatchTo hp rest r _)
    | read r =>
      cases h
      exact .inl ⟨s.val, s.addr, s.len, s.ovr, rest, _, rfl⟩
    | wait =>
      simp only [State.hostDo] at h
      split at h <;> cases h <;> exact .inl ⟨s.val, s.addr, s.len, s.ovr, _, _, rfl⟩
    | memWrite a b =>
      by_cases ha : a < s.params.memBytes
      · have hstore := State.hostMemWrite_some (s := s.setProgram rest) hp ha b
        cases hstore.symm.trans h
        exact .inr ⟨a, b, rest, rfl⟩
      · have hfault := State.hostMemWrite_of_ge (s := s.setProgram rest) (Nat.le_of_not_lt ha) b
        cases hfault.symm.trans h

/-- The latches of two states hold the same command with the same operands, whatever else is remembered. -/
def Pending.SameCommand {V W : Nat} (p : Pending V) (q : Pending W) : Prop :=
  q.word = p.word ∧ q.addr = p.addr ∧ q.len = p.len ∧ q.val.toNat = p.val.toNat

theorem Pending.SameCommand.refl {W : Nat} (p : Pending W) : p.SameCommand p := ⟨rfl, rfl, rfl, rfl⟩

theorem Pending.SameCommand.trans {U V W : Nat} {p : Pending U} {q : Pending V} {r : Pending W} (h : p.SameCommand q)
    (h' : q.SameCommand r) : p.SameCommand r := by
  obtain ⟨h1, h2, h3, h4⟩ := h
  obtain ⟨h1', h2', h3', h4'⟩ := h'
  exact ⟨h1'.trans h1, h2'.trans h2, h3'.trans h3, h4'.trans h4⟩

/-- A memory write adds to the values of each byte the one it holds afterwards. -/
theorem mem_heldValues_of_store {p : Pending s.params.W} (hwf : Memory.wf s.mem = true) {a b : Nat} {c v : Byte} :
    (v = Memory.read (Memory.write s.mem a c) b ∨ (b, v) ∈ p.held.insert (a, Memory.read s.mem a)) ↔
      v ∈ s.heldValues p b ∨ v = Memory.read (Memory.write s.mem a c) b := by
  rw [State.mem_heldValues, List.mem_insert_iff, Prod.mk.injEq]
  by_cases hb : b = a
  · subst hb
    tauto
  · rw [Memory.read_write_other c hwf hb]
    tauto

/-- One host turn keeps the command in flight, and adds to the values of each byte the one it holds afterwards. -/
theorem hostTurn_heldValues {p : Pending s.params.W} (hwf : Memory.wf s.mem = true) (hp : s.pend = some p)
    (h : s.hostTurn = .next t) :
    Memory.wf t.mem = true ∧ t.turns = s.turns ∧ ∃ q, t.pend = some q ∧ p.SameCommand q ∧
      ∀ a v, v ∈ t.heldValues q a ↔ v ∈ s.heldValues p a ∨ v = Memory.read t.mem a := by
  obtain ⟨x, a, l, o, pr, no, rfl⟩ | ⟨a, c, pr, rfl⟩ := hostTurn_cases_of_busy hp h
  · refine ⟨hwf, rfl, p, hp, .refl p, fun a v => ?_⟩
    simp only [State.mem_heldValues]
    tauto
  · refine ⟨Memory.wf_write a c hwf, rfl, _, rfl, ⟨rfl, rfl, rfl, rfl⟩, fun b v => ?_⟩
    rw [State.mem_heldValues]
    exact mem_heldValues_of_store hwf

/-! ## Several turns of the host -/

/-- Byte `a` holds `v` at some moment of the first `k` steps from `s`. -/
def State.HoldsWithin (s : State) (k a : Nat) (v : Byte) : Prop :=
  ∃ j u, j ≤ k ∧ Host.Core.run core j s = .next u ∧ Memory.read u.mem a = v

theorem holdsWithin_now (s : State) (k a : Nat) : s.HoldsWithin k a (Memory.read s.mem a) :=
  ⟨0, s, Nat.zero_le k, rfl, rfl⟩

theorem holdsWithin_zero {a : Nat} {v : Byte} : s.HoldsWithin 0 a v ↔ v = Memory.read s.mem a := by
  constructor
  · rintro ⟨j, u, hj, hu, rfl⟩
    obtain rfl := Nat.le_zero.1 hj
    rw [run_zero_iff.1 hu]
  · rintro rfl
    exact holdsWithin_now s 0 a

/-- The moments of a run are its start and those of the run after its first step. -/
theorem holdsWithin_succ (h : step s = .next t) {k a : Nat} {v : Byte} :
    s.HoldsWithin (k + 1) a v ↔ v = Memory.read s.mem a ∨ t.HoldsWithin k a v := by
  constructor
  · rintro ⟨j, u, hj, hu, rfl⟩
    cases j with
    | zero => exact .inl (by rw [run_zero_iff.1 hu])
    | succ j =>
      rw [run_succ_of_step h] at hu
      exact .inr ⟨j, u, Nat.le_of_succ_le_succ hj, hu, rfl⟩
  · rintro (rfl | ⟨j, u, hj, hu, rfl⟩)
    · exact holdsWithin_now s (k + 1) a
    · exact ⟨j + 1, u, Nat.succ_le_succ hj, (run_succ_of_step h).trans hu, rfl⟩

/-- The step of a schedule that names the host next. -/
theorem step_of_host {rest : List Turn} (h : s.turns = .host :: rest) : step s = (s.setTurns rest).hostTurn := by
  rw [step_eq_takeTurn, State.mover, h]
  rfl

/-- Over `k` host turns the values of a byte grow by those it holds at the moments of the run; whatever the latch
remembered before stays. -/
theorem run_host_heldValues {k : Nat} {rest : List Turn} {p : Pending s.params.W} (hwf : Memory.wf s.mem = true)
    (hp : s.pend = some p) (hturns : s.turns = List.replicate k .host ++ rest)
    (h : Host.Core.run core k s = .next t) :
    ∃ q, t.pend = some q ∧ p.SameCommand q ∧
      ∀ a v, v ∈ t.heldValues q a ↔ v ∈ s.heldValues p a ∨ s.HoldsWithin k a v := by
  induction k generalizing s with
  | zero =>
    obtain rfl := run_zero_iff.1 h
    refine ⟨p, hp, .refl p, fun a v => ?_⟩
    rw [holdsWithin_zero, State.mem_heldValues]
    tauto
  | succ k ih =>
    obtain ⟨u, hstep, hrun⟩ := step_of_run_succ h
    obtain ⟨hwf', hturns', p', hp', hsame, hadd⟩ :=
      hostTurn_heldValues (s := s.setTurns (List.replicate k .host ++ rest)) hwf hp
        ((step_of_host hturns).symm.trans hstep)
    obtain ⟨q, hq, hsame', hgrow⟩ := ih hwf' hp' hturns' hrun
    refine ⟨q, hq, hsame.trans hsame', fun a v => ?_⟩
    have hnow : v = Memory.read s.mem a → v ∈ s.heldValues p a := fun e => State.mem_heldValues.2 (.inl e)
    have hnext : v = Memory.read u.mem a → u.HoldsWithin k a v := fun e => e ▸ holdsWithin_now u k a
    have hadd' : v ∈ u.heldValues p' a ↔ v ∈ s.heldValues p a ∨ v = Memory.read u.mem a := hadd a v
    rw [hgrow, hadd', holdsWithin_succ hstep]
    tauto

/-- Settles O39: at acceptance the latch remembers nothing, so the values of a byte are those it held during the run. -/
theorem readsReturnAValueHeldDuringTheCommand : Obligations.ReadsReturnAValueHeldDuringTheCommand := by
  intro s t p k rest hwf hp hheld hturns h
  obtain ⟨q, hq, ⟨hword, haddr, hlen, hval⟩, hgrow⟩ := run_host_heldValues hwf hp hturns h
  refine ⟨q, hq, hword, haddr, hlen, hval, fun a =>
    ⟨fun v => (hgrow a v).trans ?_, fun n => memRead_mem_heldValues t q n a⟩⟩
  have hstart : v ∈ s.heldValues p a → s.HoldsWithin k a v := by
    rw [State.mem_heldValues, hheld]
    rintro (rfl | hnone)
    · exact holdsWithin_now s k a
    · cases hnone
  exact or_iff_right_of_imp hstart

end Sys2Proof.Machine

/-! SUPPORT. The illegal words (`30_encoding.md` R76): the OP and ENG of no row, or those of a row whose other fields do
not match. -/

namespace Sys2Proof

variable {w : CmdWord} {r : Row}

theorem decode_illegal_iff : (∃ why, decode w = .illegal why) ↔ ∀ r, Row.hits r w = false := by
  obtain ⟨r, hr, hd⟩ | ⟨hmiss, hd⟩ := decode_cases w
  · have hlegal : ¬ ∃ why, decode w = .illegal why := by simp [hd]
    exact iff_of_false hlegal fun hmiss => Bool.false_ne_true ((hmiss r).symm.trans hr)
  · exact iff_of_true ⟨_, hd⟩ hmiss

/-- With the OP and ENG of a row, that row alone decides. -/
theorem decode_illegal_iff_of_row (ho : opField w = r.op) (he : engField w = r.eng) :
    (∃ why, decode w = .illegal why) ↔ r.hits w = false :=
  ⟨fun h => decode_illegal_iff.1 h r, decode_illegal_of_row ho he⟩

theorem decode_illegal_of_no_row (h : ¬ ∃ r : Row, opField w = r.op ∧ engField w = r.eng) :
    ∃ why, decode w = .illegal why := by
  refine decode_illegal_iff.2 fun r => Bool.eq_false_iff.2 fun hr => ?_
  obtain ⟨-, -, -, -, he, ho⟩ := (Row.hits_iff r w).1 hr
  exact h ⟨r, ho, he⟩

/-- R76, the bullets on OP and ENG: every other pair is that of a row. -/
theorem Row.exists_op_eng_iff (o : BitVec 4) (e : BitVec 1) :
    (∃ r : Row, o = r.op ∧ e = r.eng) ↔ ¬ (o = 0#4 ∨ 6 ≤ o.toNat ∨ (o ∈ [3#4, 5#4] ∧ e = 1#1)) := by
  constructor
  · rintro ⟨r, rfl, rfl⟩
    cases r <;> decide
  · have hall : ∀ (o : BitVec 4) (e : BitVec 1), ¬ (o = 0#4 ∨ 6 ≤ o.toNat ∨ (o ∈ [3#4, 5#4] ∧ e = 1#1)) →
        ∃ r ∈ Row.all, o = r.op ∧ e = r.eng := by decide
    intro h
    obtain ⟨r, -, hr⟩ := hall o e h
    exact ⟨r, hr⟩

theorem Row.anyDir_eq_false_iff (r : Row) : r.anyDir = false ↔ r.op ∈ [2#4, 3#4, 4#4, 5#4] := by
  cases r <;> decide

theorem Row.anyImm_eq_false_iff (r : Row) : r.anyImm = false ↔ r.op ∈ [1#4, 2#4, 3#4] := by
  cases r <;> decide

theorem dirField_ne_zero_iff (w : CmdWord) : dirField w ≠ 0#1 ↔ dirField w = 1#1 := by
  obtain h | h := BitVec.eq_zero_or_eq_one (dirField w) <;> simp [h]

/-- R76, the bullets on the reserved fields, DIR and IMM8: how a word with the OP and ENG of a row can miss it. -/
theorem Row.hits_eq_false_iff (ho : opField w = r.op) (he : engField w = r.eng) :
    r.hits w = false ↔
      rsv0Field w ≠ 0#2 ∨ rsv1Field w ≠ 0#16 ∨ (opField w ∈ [2#4, 3#4, 4#4, 5#4] ∧ dirField w = 1#1) ∨
        (opField w ∈ [1#4, 2#4, 3#4] ∧ imm8Field w ≠ 0#8) := by
  rw [← Bool.not_eq_true, Row.hits_iff, Row.anyDir_eq_false_iff, Row.anyImm_eq_false_iff, ← ho, ← he,
    ← dirField_ne_zero_iff]
  tauto

theorem decode_illegal_iff_fields (w : CmdWord) :
    (∃ why, decode w = .illegal why) ↔
      (opField w = 0#4 ∨ 6 ≤ (opField w).toNat ∨ rsv0Field w ≠ 0#2 ∨ rsv1Field w ≠ 0#16 ∨
        (opField w ∈ [2#4, 3#4, 4#4, 5#4] ∧ dirField w = 1#1) ∨
        (opField w ∈ [1#4, 2#4, 3#4] ∧ imm8Field w ≠ 0#8) ∨
        (opField w ∈ [3#4, 5#4] ∧ engField w = 1#1)) := by
  have hopEng := Row.exists_op_eng_iff (opField w) (engField w)
  by_cases hrow : ∃ r : Row, opField w = r.op ∧ engField w = r.eng
  · have hlisted := hopEng.1 hrow
    obtain ⟨r, ho, he⟩ := hrow
    rw [decode_illegal_iff_of_row ho he, Row.hits_eq_false_iff ho he]
    tauto
  · have hreserved := not_not.1 (mt hopEng.2 hrow)
    refine iff_of_true (decode_illegal_of_no_row hrow) ?_
    tauto

end Sys2Proof

namespace Sys2Proof.Machine

/-- R23: a CMD write depends on bits 31:0 of the value alone. -/
theorem regWrite_cmd_congr (s : State) {v v' : HostWord} (h : v.setWidth 32 = v'.setWidth 32) :
    s.regWrite .cmd v = s.regWrite .cmd v' := by
  cases hp : s.pend with
  | none => rw [regWrite_cmd_of_idle hp, regWrite_cmd_of_idle hp, h]
  | some p => rw [regWrite_cmd_of_busy hp, regWrite_cmd_of_busy hp]

/-- Settles O5: OP and ENG are those of no row or of one row, which the other fields must match. -/
theorem illegalWordsAreThoseOfTheReservedEncodings : Obligations.IllegalWordsAreThoseOfTheReservedEncodings :=
  ⟨decode_illegal_iff_fields, fun s _ _ hp hd => (executorTurn_illegal hp hd).trans (s.raiseError_eq .illegal),
    fun s _ _ => regWrite_cmd_congr s⟩

end Sys2Proof.Machine

/-! SUPPORT. Bit reversal as a mirror of the bits (`40_bit_reversal.md` R100, R102), and the one word and the completion
of `rev` (R101). -/

namespace Sys2Proof

/-- OP = 3 is the row of `rev` alone. -/
theorem Row.eq_rev_of_op {r : Row} : r.op = 3#4 → r = .rev := by
  cases r <;> decide

theorem decode_illegal_of_op_rev {w : CmdWord} (ho : opField w = 3#4) (hw : w ≠ 0x00000003#32) :
    ∃ why, decode w = .illegal why := by
  refine decode_illegal_iff.2 fun r => Bool.eq_false_iff.2 fun hr => ?_
  obtain ⟨-, -, -, -, -, hop⟩ := (Row.hits_iff r w).1 hr
  obtain rfl := Row.eq_rev_of_op (hop.symm.trans ho)
  exact hw ((Row.hits_iff_of_mask rfl w).1 hr)

end Sys2Proof

namespace Sys2Proof.Machine

variable {W : Nat}

/-- R100, as it is written: bit `W-1-i` of the reversed value is bit `i` of the value. -/
theorem getLsbD_bitReverse_mirror (x : BitVec W) {i : Nat} (hi : i < W) :
    (bitReverse x).getLsbD (W - 1 - i) = x.getLsbD i := by
  have hmirror : W - 1 - i < W := by omega
  have htwice : W - 1 - (W - 1 - i) = i := by omega
  rw [getLsbD_bitReverse, htwice, decide_eq_true hmirror, Bool.true_and]

@[simp] theorem bitReverse_bitReverse (x : BitVec W) : bitReverse (bitReverse x) = x := by
  refine BitVec.eq_of_getLsbD_eq fun i hi => ?_
  rw [getLsbD_bitReverse, getLsbD_bitReverse_mirror x hi, decide_eq_true hi, Bool.true_and]

/-- R101, on any engines. -/
theorem exec_rev {s : State} {p : Pending s.params.W} (hp : s.pend = some p) :
    exec .rev s = .next { s with result := bitReverse p.val, err := .none, pend := none } :=
  (State.withPending_some hp _).trans (s.completeWith_eq _)

/-- Settles O25: OP = 3 leaves only the row of `rev`, whose mask fixes the word, and the result is the reversed VAL. -/
theorem revReversesValIntoResult : Obligations.RevReversesValIntoResult :=
  ⟨decode_of_find (r := .rev) (by decide), fun _ => decode_illegal_of_op_rev,
    fun _ p hp => ⟨bitReverse p.val, fun _ => getLsbD_bitReverse_mirror p.val, exec_rev hp⟩⟩

/-- Settles O41: a bit mirrored twice stands where it stood, at every width. -/
theorem bitReversalIsAnInvolution : Obligations.BitReversalIsAnInvolution :=
  fun _ => bitReverse_bitReverse

end Sys2Proof.Machine

/-! SUPPORT. The directional shift: its numbers (`41_directional_shifter.md` R110), its laws (R115), and the words and
the completion of the two shift commands (R113, R114). -/

namespace Sys2Proof

variable {w : CmdWord} {r : Row}

/-! ## Words of a row that fixes DIR and takes any IMM8 -/

/-- The row that matches a word decodes it, for no other row does. -/
theorem decode_of_hits (h : r.hits w = true) : decode w = .instr (r.instr w) := by
  obtain ⟨r', hr', hd⟩ | ⟨hmiss, -⟩ := decode_cases w
  · obtain ⟨-, -, -, -, he, ho⟩ := (Row.hits_iff r w).1 h
    obtain ⟨-, -, -, -, he', ho'⟩ := (Row.hits_iff r' w).1 hr'
    rw [hd, Row.eq_of_op_eng (ho'.symm.trans ho) (he'.symm.trans he)]
  · exact absurd h (Bool.eq_false_iff.1 (hmiss r))

/-- R74, the rows with an operand in IMM8: their words differ only there. -/
theorem Row.hits_iff_packWord (hi : r.anyImm = true) (hd : r.anyDir = false) :
    r.hits w = true ↔ w = packWord r.op r.eng 0#1 (imm8Field w) := by
  rw [Row.hits_iff]
  constructor
  · rintro ⟨hrsv1, -, hrsv0, hdir, heng, hop⟩
    rw [packWord_eq, ← hrsv1, ← hrsv0, ← hdir hd, ← heng, ← hop, joinFields_fields]
  · intro h
    rw [h]
    simp [hi]

theorem toNat_append_eq_add {n m : Nat} (a : BitVec n) (b : BitVec m) : (a ++ b).toNat = a.toNat * 2 ^ m + b.toNat := by
  rw [BitVec.toNat_append, ← Nat.shiftLeft_add_eq_or_of_lt b.isLt, Nat.shiftLeft_eq]

/-- R70: where each field stands in the word, as a number. -/
theorem packWord_eq_ofNat (op : BitVec 4) (eng : BitVec 1) (imm : BitVec 8) :
    packWord op eng 0#1 imm = BitVec.ofNat 32 (op.toNat + 16 * eng.toNat + 256 * imm.toNat) := by
  have hop := op.isLt
  have heng := eng.isLt
  have himm := imm.isLt
  refine BitVec.eq_of_toNat_eq ?_
  simp only [packWord, toNat_append_eq_add, BitVec.toNat_ofNat]
  omega

/-- A count of R71 is kept by IMM8. -/
theorem toNat_ofNat_eight {n : Nat} (hn : n ≤ 255) : (BitVec.ofNat 8 n).toNat = n :=
  Nat.mod_eq_of_lt (Nat.lt_succ_of_le hn)

theorem packWord_ofNat (op : BitVec 4) (eng : BitVec 1) {n : Nat} (hn : n ≤ 255) :
    packWord op eng 0#1 (BitVec.ofNat 8 n) = BitVec.ofNat 32 (op.toNat + 16 * eng.toNat + 256 * n) := by
  rw [packWord_eq_ofNat, toNat_ofNat_eight hn]

/-- The two rows of OP = 4. -/
theorem Row.eq_shift_of_op (h : r.op = 4#4) : r = .shiftBw ∨ r = .shiftTb := by
  revert h
  cases r <;> decide

theorem Row.hits_shiftBw_iff :
    Row.shiftBw.hits w = true ↔ w = BitVec.ofNat 32 (0x4 + 256 * (imm8Field w).toNat) := by
  rw [Row.hits_iff_packWord rfl rfl, packWord_eq_ofNat]
  rfl

theorem Row.hits_shiftTb_iff :
    Row.shiftTb.hits w = true ↔ w = BitVec.ofNat 32 (0x14 + 256 * (imm8Field w).toNat) := by
  rw [Row.hits_iff_packWord rfl rfl, packWord_eq_ofNat]
  rfl

end Sys2Proof

namespace Sys2Proof.Machine

variable {W : Nat}

theorem toNat_shl (x : BitVec W) (n : Nat) : (shl x n).toNat = if n < W then x.toNat * 2 ^ n % 2 ^ W else 0 := by
  unfold shl
  split
  · exact BitVec.toNat_ofNat ..
  · rfl

theorem toNat_shr (x : BitVec W) (n : Nat) : (shr x n).toNat = if n < W then x.toNat / 2 ^ n else 0 := by
  unfold shr
  split
  · rw [BitVec.toNat_ofNat, Nat.mod_eq_of_lt (Nat.lt_of_le_of_lt (Nat.div_le_self ..) x.isLt)]
  · rfl

/-! ## The laws (R115) -/

theorem dirShift_zero (d : Dir) (x : BitVec W) : dirShift d x 0 = x := by
  cases d with
  | msbFirst => exact (shl_eq x 0).trans (BitVec.shiftLeft_zero x)
  | lsbFirst => exact (shr_eq x 0).trans (BitVec.ushiftRight_zero x)

theorem dirShift_dirShift (d : Dir) (x : BitVec W) (a b : Nat) :
    dirShift d (dirShift d x a) b = dirShift d x (a + b) := by
  cases d with
  | msbFirst => simp only [dirShift, shl_eq, BitVec.shiftLeft_add]
  | lsbFirst => simp only [dirShift, shr_eq, BitVec.shiftRight_add]

theorem dirShift_of_le (d : Dir) (x : BitVec W) {n : Nat} (h : W ≤ n) : dirShift d x n = 0 := by
  cases d with
  | msbFirst => exact if_neg (Nat.not_lt_of_le h)
  | lsbFirst => exact if_neg (Nat.not_lt_of_le h)

/-- Seen in the mirror, a shift to the left is a shift to the right. -/
theorem shl_eq_bitReverse_shr (x : BitVec W) (n : Nat) : shl x n = bitReverse (shr (bitReverse x) n) := by
  refine BitVec.eq_of_getLsbD_eq fun i hi => ?_
  rw [getLsbD_shl, getLsbD_bitReverse, getLsbD_shr, getLsbD_bitReverse, Bool.and_assoc]
  by_cases hn : n ≤ i
  · have hin : n + (W - 1 - i) < W := by omega
    have hback : W - 1 - (n + (W - 1 - i)) = i - n := by omega
    rw [hback, decide_eq_true hn, decide_eq_true hin]
  · have hout : ¬ n + (W - 1 - i) < W := by omega
    rw [decide_eq_false hn, decide_eq_false hout, Bool.false_and, Bool.false_and]

/-- Settles O42: the first three laws are those of each logical shift, the last is the mirror, bit by bit. -/
theorem directionalShiftLaws : Obligations.DirectionalShiftLaws :=
  fun _ x d a b n => ⟨dirShift_zero d x, dirShift_dirShift d x a b, dirShift_of_le d x, shl_eq_bitReverse_shr x n⟩

/-! ## The commands (R113, R114) -/

section RunShift

variable {s : State} {p : Pending s.params.W} {c : EngineCfg s.params.W}

theorem runShift_of_not_valid (hp : s.pend = some p) (hc : c.valid = false) (n : Nat) :
    s.runShift c n = .next { s with err := .nocfg, pend := none } := by
  rw [State.runShift_eq hp, hc]
  rfl

theorem runShift_of_valid (hp : s.pend = some p) (hc : c.valid = true) (n : Nat) :
    s.runShift c n = .next { s with result := dirShift c.dir p.val n, err := .none, pend := none } := by
  rw [State.runShift_eq hp, hc]
  rfl

/-- A shift command is the shared body on the configuration of its own engine. -/
theorem exec_shift {n : Nat} {i : Instr} (h : (i = .shiftBw n ∧ c = s.bw) ∨ (i = .shiftTb n ∧ c = s.tb)) :
    exec i s = s.runShift c n := by
  obtain ⟨rfl, rfl⟩ | ⟨rfl, rfl⟩ := h <;> rfl

end RunShift

/-- R78: the words of the shift commands, by their counts. -/
theorem decode_shift {n : Nat} (hn : n ≤ 255) :
    decode (BitVec.ofNat 32 (0x4 + 256 * n)) = .instr (.shiftBw n) ∧
      decode (BitVec.ofNat 32 (0x14 + 256 * n)) = .instr (.shiftTb n) := by
  have hbw : encode (.shiftBw n) = BitVec.ofNat 32 (0x4 + 256 * n) := packWord_ofNat 4#4 0#1 hn
  have htb : encode (.shiftTb n) = BitVec.ofNat 32 (0x14 + 256 * n) := packWord_ofNat 4#4 1#1 hn
  rw [← hbw, ← htb, decode_of_hits (Laws.RowMatch.shiftBw n), decode_of_hits (Laws.RowMatch.shiftTb n)]
  simp [Laws.RowMatch.rowOf, Row.instr, encode, toNat_ofNat_eight hn]

theorem decode_illegal_of_op_shift {w : CmdWord} (ho : opField w = 4#4)
    (hw : ∀ n : Nat, n ≤ 255 → w ≠ BitVec.ofNat 32 (0x4 + 256 * n) ∧ w ≠ BitVec.ofNat 32 (0x14 + 256 * n)) :
    ∃ why, decode w = .illegal why := by
  refine decode_illegal_iff.2 fun r => Bool.eq_false_iff.2 fun hr => ?_
  obtain ⟨hbw, htb⟩ := hw (imm8Field w).toNat (Nat.le_of_lt_succ (imm8Field w).isLt)
  obtain ⟨-, -, -, -, -, hop⟩ := (Row.hits_iff r w).1 hr
  obtain rfl | rfl := Row.eq_shift_of_op (hop.symm.trans ho)
  · exact hbw (Row.hits_shiftBw_iff.1 hr)
  · exact htb (Row.hits_shiftTb_iff.1 hr)

/-- Settles O26: OP = 4 leaves the two rows of the shifts, whose masks leave IMM8 free, and the completion is the shared
body on the command's own engine. -/
theorem shiftCommandsShiftInTheirEnginesDirection : Obligations.ShiftCommandsShiftInTheirEnginesDirection := by
  refine ⟨fun n => decode_shift, fun w => decode_illegal_of_op_shift, fun s p n i c hp hi => ?_⟩
  rw [exec_shift hi]
  refine ⟨fun hc => runShift_of_not_valid hp hc n, fun hc => ⟨_, ?_, runShift_of_valid hp hc n⟩⟩
  cases c.dir with
  | msbFirst => exact toNat_shl p.val n
  | lsbFirst => exact toNat_shr p.val n

end Sys2Proof.Machine

/-! SUPPORT. The bitwise engine (`42_bitwise_engine.md`): the numbers of a derived configuration (R120), its bit step
(R122) and byte update (R125), their linearity (R130), and the words and the completion of `cfg.bw` (R124). -/

namespace Sys2Proof

variable {w : CmdWord} {r : Row}

/-! ## Words of a row that takes any DIR and fixes IMM8 -/

/-- R74, the rows with a direction: their words differ only in DIR. -/
theorem Row.eq_packWord_of_hits (hi : r.anyImm = false) (h : r.hits w = true) :
    w = packWord r.op r.eng (dirField w) 0#8 := by
  obtain ⟨hrsv1, himm, hrsv0, -, heng, hop⟩ := (Row.hits_iff r w).1 h
  rw [packWord_eq, ← hrsv1, ← himm hi, ← hrsv0, ← heng, ← hop, joinFields_fields]

/-- A row that fixes IMM8 matches at most one word for each direction. -/
theorem Row.mem_packWord_of_hits (hi : r.anyImm = false) (h : r.hits w = true) :
    w ∈ [packWord r.op r.eng Dir.msbFirst.bit 0#8, packWord r.op r.eng Dir.lsbFirst.bit 0#8] := by
  have hw := Row.eq_packWord_of_hits hi h
  rw [← Dir.bit_ofBit (dirField w)] at hw
  rw [hw]
  cases Dir.ofBit (dirField w) <;> simp

end Sys2Proof

namespace Sys2Proof.Machine

variable {W : Nat}

/-! ## The derived configuration (R120, R121) -/

/-- The bit under the mask of a derived configuration. -/
def maskBit (W : Nat) : Dir → Nat
  | .msbFirst => W - 1
  | .lsbFirst => 0

@[simp] theorem derive_valid (d : Dir) (P : BitVec W) : (derive d P).valid = true := by cases d <;> rfl

@[simp] theorem derive_dir (d : Dir) (P : BitVec W) : (derive d P).dir = d := by cases d <;> rfl

theorem twoPow_eq_ofNat (W i : Nat) : BitVec.twoPow W i = BitVec.ofNat W (2 ^ i) :=
  BitVec.eq_of_toNat_eq (by rw [BitVec.toNat_twoPow, BitVec.toNat_ofNat])

theorem derive_mask (d : Dir) (P : BitVec W) : (derive d P).mask = BitVec.twoPow W (maskBit W d) := by
  cases d with
  | msbFirst => exact (twoPow_eq_ofNat W (W - 1)).symm
  | lsbFirst => exact BitVec.twoPow_zero.symm

theorem maskBit_lt (hW : 0 < W) (d : Dir) : maskBit W d < W := by
  cases d with
  | msbFirst => exact Nat.sub_one_lt_of_lt hW
  | lsbFirst => exact hW

theorem toNat_derive_mask (hW : 0 < W) (d : Dir) (P : BitVec W) : (derive d P).mask.toNat = 2 ^ maskBit W d := by
  rw [derive_mask, BitVec.toNat_twoPow_of_lt (maskBit_lt hW d)]

/-- R120, R121: every field of the derived configuration, in each direction. -/
theorem derive_fields (hW : 0 < W) (d : Dir) (P : BitVec W) :
    (derive d P).valid = true ∧ (derive d P).dir = d ∧
      (d = .msbFirst → (derive d P).poly = P ∧ (derive d P).mask.toNat = 2 ^ (W - 1) ∧ (derive d P).pack = W - 8) ∧
      (d = .lsbFirst → (∀ i, i < W → (derive d P).poly.getLsbD (W - 1 - i) = P.getLsbD i) ∧
        (derive d P).mask.toNat = 1 ∧ (derive d P).pack = 0) := by
  refine ⟨derive_valid d P, derive_dir d P, ?_, ?_⟩ <;> rintro rfl
  · exact ⟨rfl, toNat_derive_mask hW .msbFirst P, rfl⟩
  · exact ⟨fun _ => getLsbD_bitReverse_mirror P, toNat_derive_mask hW .lsbFirst P, rfl⟩

/-- R125: the pack offset leaves room for the byte. -/
theorem derive_pack_add_eight_le (hW : 8 ≤ W) (d : Dir) (P : BitVec W) : (derive d P).pack + 8 ≤ W := by
  cases d with
  | msbFirst => exact Nat.le_of_eq (Nat.sub_add_cancel hW)
  | lsbFirst => exact hW

/-! ## `cfg.bw` (R124) -/

/-- R78: the two words of `cfg.bw`. -/
theorem decode_cfgBw (d : Dir) :
    decode (if d = .msbFirst then 0x00000001#32 else 0x00000021#32) = .instr (.cfgBw d) := by
  cases d <;> exact decode_of_hits (r := .cfgBw) (by decide)

theorem decode_illegal_of_op_cfgBw {w : CmdWord} (ho : opField w = 1#4) (he : engField w = 0#1)
    (hw : w ∉ [0x00000001#32, 0x00000021#32]) : ∃ why, decode w = .illegal why :=
  decode_illegal_of_row (r := .cfgBw) ho he (Bool.eq_false_iff.2 fun h => hw (Row.mem_packWord_of_hits rfl h))

theorem exec_cfgBw {s : State} {p : Pending s.params.W} (hp : s.pend = some p) (d : Dir) :
    exec (.cfgBw d) s = .next { s with bw := derive d p.val, err := .none, pend := none } :=
  (State.withPending_some hp _).trans (State.complete_eq _)

/-- Settles O27: the row of `cfg.bw` leaves only DIR free, and the new configuration is the derived one, field by
field. -/
theorem cfgBwConstructsTheBitwiseEngine : Obligations.CfgBwConstructsTheBitwiseEngine := by
  refine ⟨decode_cfgBw, fun w => decode_illegal_of_op_cfgBw, fun s p d hp => ⟨derive d p.val, exec_cfgBw hp d, ?_⟩⟩
  exact derive_fields (Nat.lt_of_lt_of_le (by decide) s.params.width.eight_le) d p.val

/-! ## The bit step (R122) -/

/-- R122 on a derived configuration: the bit tested is the one under the mask, before the shift. -/
theorem bitStep_derive (hW : 0 < W) (d : Dir) (P r : BitVec W) :
    bitStep (derive d P) r =
      if r.getLsbD (maskBit W d) = true then dirShift d r 1 ^^^ (derive d P).poly else dirShift d r 1 := by
  have hmask : BitVec.twoPow W (maskBit W d) ≠ 0#W := fun h => by
    have hnum := BitVec.toNat_twoPow_of_lt (maskBit_lt hW d)
    rw [h] at hnum
    exact (Nat.two_pow_pos _).ne hnum
  have htest : r &&& (derive d P).mask ≠ 0#W ↔ r.getLsbD (maskBit W d) = true := by
    rw [derive_mask, BitVec.and_twoPow, ite_ne_right_iff, and_iff_left hmask]
  rw [bitStep, derive_dir]
  exact if_congr htest rfl rfl

theorem getLsbD_maskBit_msbFirst (r : BitVec W) :
    r.getLsbD (maskBit W .msbFirst) = true ↔ 2 ^ (W - 1) ≤ r.toNat := by
  rw [maskBit, ← BitVec.msb_eq_getLsbD_last, BitVec.msb_eq_decide, decide_eq_true_iff]

theorem getLsbD_maskBit_lsbFirst (r : BitVec W) : r.getLsbD (maskBit W .lsbFirst) = true ↔ r.toNat % 2 = 1 := by
  rw [maskBit, ← BitVec.testBit_toNat, Nat.testBit_zero, decide_eq_true_iff]

/-- Settles O43: in each direction the bit under the mask is a comparison of numbers, and a shift by one place a
doubling or a halving. -/
theorem bitStepTestsShiftsThenXors : Obligations.BitStepTestsShiftsThenXors := by
  intro w P r
  have hW : 1 < w.bits := Nat.lt_of_lt_of_le (by decide) w.eight_le
  have hshl : dirShift .msbFirst r 1 = BitVec.ofNat w.bits (r.toNat * 2) := if_pos hW
  have hshr : dirShift .lsbFirst r 1 = BitVec.ofNat w.bits (r.toNat / 2) := if_pos hW
  rw [bitStep_derive (Nat.zero_lt_of_lt hW), bitStep_derive (Nat.zero_lt_of_lt hW), hshl, hshr]
  exact ⟨if_congr (getLsbD_maskBit_msbFirst r) rfl rfl, if_congr (getLsbD_maskBit_lsbFirst r) rfl rfl⟩

/-! ## Bit steps in sequence, and the byte update (R123, R125) -/

theorem bitSteps_eq_iterate (c : EngineCfg W) (n : Nat) (r : BitVec W) : bitSteps c n r = (bitStep c)^[n] r := by
  induction n generalizing r with
  | zero => rfl
  | succ n ih => exact ih (bitStep c r)

/-- R125: the combine shift moves the byte to the pack offset and loses none of its bits. -/
theorem toNat_shl_pack (hW : 8 ≤ W) (d : Dir) (P : BitVec W) (b : Byte) :
    (shl (b.setWidth W) (derive d P).pack).toNat = b.toNat * 2 ^ (derive d P).pack := by
  have hpack := derive_pack_add_eight_le hW d P
  have hfit : b.toNat * 2 ^ (derive d P).pack < 2 ^ W :=
    calc b.toNat * 2 ^ (derive d P).pack
      _ < 2 ^ 8 * 2 ^ (derive d P).pack := Nat.mul_lt_mul_of_pos_right b.isLt (Nat.two_pow_pos _)
      _ = 2 ^ ((derive d P).pack + 8) := by rw [Nat.pow_add, Nat.mul_comm]
      _ ≤ 2 ^ W := Nat.pow_le_pow_right (by decide) hpack
  rw [toNat_shl, if_pos (by omega), BitVec.toNat_setWidth_of_le hW, Nat.mod_eq_of_lt hfit]

/-- Settles O44: the byte fits above the pack offset, and both loops are iterations by definition. -/
theorem byteUpdateCombinesThenStepsEightTimes : Obligations.ByteUpdateCombinesThenStepsEightTimes :=
  ⟨fun w d P _ b => ⟨_, toNat_shl_pack w.eight_le d P b, bitSteps_eq_iterate _ 8 _⟩,
    fun _ c r _ _ => ⟨bitSteps_eq_iterate c 8 r, rfl, rfl⟩⟩

/-! ## Linearity over GF(2) (R130) -/

theorem dirShift_xor (d : Dir) (x y : BitVec W) (n : Nat) :
    dirShift d (x ^^^ y) n = dirShift d x n ^^^ dirShift d y n := by
  cases d with
  | msbFirst => simp only [dirShift, shl_eq, BitVec.shiftLeft_xor_distrib]
  | lsbFirst => simp only [dirShift, shr_eq, BitVec.ushiftRight_xor_distrib]

theorem ite_xor_eq (a b : Bool) (P : BitVec W) :
    (if (a ^^ b) = true then P else 0) = (if a = true then P else 0) ^^^ (if b = true then P else 0) := by
  cases a <;> cases b <;> simp

/-- The bit step as a sum over GF(2): the shift, and the polynomial times the bit tested. -/
theorem bitStep_derive_eq_xor (hW : 0 < W) (d : Dir) (P r : BitVec W) :
    bitStep (derive d P) r =
      dirShift d r 1 ^^^ (if r.getLsbD (maskBit W d) = true then (derive d P).poly else 0) := by
  rw [bitStep_derive hW]
  split
  · rfl
  · exact BitVec.xor_zero.symm

theorem bitStep_xor (hW : 0 < W) (d : Dir) (P x y : BitVec W) :
    bitStep (derive d P) (x ^^^ y) = bitStep (derive d P) x ^^^ bitStep (derive d P) y := by
  simp only [bitStep_derive_eq_xor hW, dirShift_xor, BitVec.getLsbD_xor, ite_xor_eq]
  ac_rfl

theorem bitSteps_xor (hW : 0 < W) (d : Dir) (P : BitVec W) (n : Nat) (x y : BitVec W) :
    bitSteps (derive d P) n (x ^^^ y) = bitSteps (derive d P) n x ^^^ bitSteps (derive d P) n y := by
  induction n generalizing x y with
  | zero => rfl
  | succ n ih => rw [bitSteps, bitStep_xor hW, ih, bitSteps, bitSteps]

/-- While the bits that come under the mask are 0, bit steps only shift. -/
theorem bitSteps_eq_dirShift (hW : 0 < W) (d : Dir) (P : BitVec W) {n : Nat} {x : BitVec W}
    (h : ∀ k < n, (dirShift d x k).getLsbD (maskBit W d) = false) : bitSteps (derive d P) n x = dirShift d x n := by
  induction n generalizing x with
  | zero => exact (dirShift_zero d x).symm
  | succ n ih =>
    have hbit : x.getLsbD (maskBit W d) = false := by simpa only [dirShift_zero] using h 0 n.succ_pos
    have hstep : bitStep (derive d P) x = dirShift d x 1 := by
      rw [bitStep_derive hW, hbit]
      rfl
    have hrest : ∀ k < n, (dirShift d (dirShift d x 1) k).getLsbD (maskBit W d) = false := fun k hk => by
      rw [dirShift_dirShift, Nat.add_comm]
      exact h (k + 1) (Nat.succ_lt_succ hk)
    rw [bitSteps, hstep, ih hrest, dirShift_dirShift, Nat.add_comm]

theorem inner8_zero (hW : 0 < W) (d : Dir) (P : BitVec W) : inner8 (derive d P) 0 = 0 := by
  have h := bitSteps_xor hW d P 8 0 0
  rwa [BitVec.xor_self, BitVec.xor_self] at h

/-- A register whose top byte is 0 shows only zeros under the MSB-first mask. -/
theorem getLsbD_maskBit_shl (hW : 8 ≤ W) {x : BitVec W} (hx : x.toNat < 2 ^ (W - 8)) {k : Nat} (hk : k < 8) :
    (shl x k).getLsbD (maskBit W .msbFirst) = false := by
  have hlt : x.toNat < 2 ^ (W - 1 - k) := hx.trans_le (Nat.pow_le_pow_right (by decide) (by omega))
  rw [getLsbD_shl, maskBit, ← BitVec.testBit_toNat, Nat.testBit_lt_two_pow hlt, Bool.and_false]

/-- A register whose low byte is 0 shows only zeros under the LSB-first mask. -/
theorem getLsbD_maskBit_shr {x : BitVec W} (hx : x.toNat % 256 = 0) {k : Nat} (hk : k < 8) :
    (shr x k).getLsbD (maskBit W .lsbFirst) = false := by
  have hbit := Nat.testBit_mod_two_pow x.toNat 8 k
  rw [decide_eq_true hk, Bool.true_and, BitVec.testBit_toNat] at hbit
  rw [getLsbD_shr, maskBit, Nat.add_zero, ← hbit]
  exact (congrArg (Nat.testBit · k) hx).trans (Nat.zero_testBit k)

/-- Settles O45: a bit step is a sum of two linear parts, and on zeros under the mask it is the shift alone. -/
theorem bitStepsAreLinear : Obligations.BitStepsAreLinear := by
  intro w d P x y
  have hW : 0 < w.bits := Nat.lt_of_lt_of_le (by decide) w.eight_le
  refine ⟨bitStep_xor hW d P x y, bitSteps_xor hW d P 8 x y, inner8_zero hW d P, ?_, ?_⟩ <;> rintro rfl hx
  · exact bitSteps_eq_dirShift hW .msbFirst P fun k => getLsbD_maskBit_shl w.eight_le hx
  · exact bitSteps_eq_dirShift hW .lsbFirst P fun k => getLsbD_maskBit_shr hx

end Sys2Proof.Machine

/-! SUPPORT. A CRC over two adjacent ranges (`42_bitwise_engine.md` R128, R129, `43_table_engine.md` R149): the bytes a
`crc.*` reads are those stored, and its result is a fold over them, on either engine. -/

namespace Sys2Proof.Machine

variable {s : State}

/-! ## The bytes of a range nothing was written in -/

/-- The `l` bytes data memory stores from address `a` upward. -/
def State.storedBytes (s : State) (a l : Nat) : List Byte := (List.range l).map fun k => Memory.read s.mem (a + k)

theorem storedBytes_add (s : State) (a m n : Nat) :
    s.storedBytes a (m + n) = s.storedBytes a m ++ s.storedBytes (a + m) n := by
  simp [State.storedBytes, List.range_add, Nat.add_assoc]

theorem memRead_of_held_nil {p : Pending s.params.W} (h : p.held = []) (k a : Nat) :
    s.memRead p k a = Memory.read s.mem a := by
  rw [State.memRead, State.heldValues_of_not_held (by simp [h])]

theorem dataBytes_of_held_nil {p : Pending s.params.W} (h : p.held = []) :
    s.dataBytes p = s.storedBytes p.addr.toNat p.len.toNat :=
  List.map_congr_left fun k _ => memRead_of_held_nil h k _

/-! ## A `crc.*` on a latch just accepted -/

/-- The latch of a command accepted with these operands (`70_reset_and_hazards.md` R191). -/
def acceptedLatch {W : Nat} (word : CmdWord) (v : BitVec W) (a l : Nat) : Pending W :=
  { word := word, val := v, addr := BitVec.ofNat 64 a, len := BitVec.ofNat 64 l, held := [] }

section RunCrc

variable {c : EngineCfg s.params.W} {f : BitVec s.params.W → List Byte → BitVec s.params.W}

theorem runCrc_of_held_nil {p : Pending s.params.W} (hp : s.pend = some p) (hheld : p.held = []) (hc : c.valid = true)
    (hr : p.len = 0 ∨ p.addr.toNat + p.len.toNat ≤ s.params.memBytes) :
    s.runCrc c f = .next { s with
      result := f p.val (s.storedBytes p.addr.toNat p.len.toNat), err := .none, pend := none,
      draws := s.draws + p.len.toNat } := by
  rw [runCrc_of_legal hp hc hr, dataBytes_of_held_nil hheld]

/-- The body of `crc.*` over a range inside memory. An empty range may start where memory ends, which at the largest
memory is no 64-bit address. -/
theorem runCrc_acceptedLatch (hc : c.valid = true) (word : CmdWord) (v : BitVec s.params.W) {a l : Nat}
    (hl : l < 2 ^ 64) (ha : l = 0 ∨ a < 2 ^ 64) (hr : a + l ≤ s.params.memBytes) :
    (s.setPend (some (acceptedLatch word v a l))).runCrc c f =
      .next { s with result := f v (s.storedBytes a l), err := .none, pend := none, draws := s.draws + l } := by
  have hlen : (BitVec.ofNat 64 l).toNat = l := Nat.mod_eq_of_lt hl
  have hrange : (BitVec.ofNat 64 a).toNat + (BitVec.ofNat 64 l).toNat ≤ s.params.memBytes := by
    rw [hlen]
    exact (Nat.add_le_add_right (Nat.mod_le a _) l).trans hr
  have hbytes : s.storedBytes (BitVec.ofNat 64 a).toNat l = s.storedBytes a l := by
    obtain rfl | ha := ha
    · rfl
    · exact congrArg (s.storedBytes · l) (Nat.mod_eq_of_lt ha)
  calc (s.setPend (some (acceptedLatch word v a l))).runCrc c f
    _ = .next { s with
        result := f v (s.storedBytes (BitVec.ofNat 64 a).toNat (BitVec.ofNat 64 l).toNat), err := .none, pend := none,
        draws := s.draws + (BitVec.ofNat 64 l).toNat } :=
      runCrc_of_held_nil (s := s.setPend (some (acceptedLatch word v a l))) rfl rfl hc (.inr hrange)
    _ = _ := by rw [hlen, hbytes]

end RunCrc

/-- Each engine's `crc.*` is the shared body on that engine's configuration, with a fold over the bytes. -/
theorem exec_crc_eq_runCrc_foldl {i : Instr} (h : (i = .crcBw ∧ s.bw.valid = true) ∨ (i = .crcTb ∧ s.tb.valid = true)) :
    ∃ (c : EngineCfg s.params.W) (update : BitVec s.params.W → Byte → BitVec s.params.W), c.valid = true ∧
      ∀ p, exec i (s.setPend p) = (s.setPend p).runCrc c (List.foldl update) := by
  obtain ⟨rfl, hv⟩ | ⟨rfl, hv⟩ := h
  · exact ⟨s.bw, bwByte s.bw, hv, fun _ => rfl⟩
  · exact ⟨s.tb, tbByte s.tb s.table, hv, fun _ => rfl⟩

/-- Settles O48: a fold over two lists in a row is the fold of the second from the first's result, and the bytes of two
adjacent ranges are those of the first and then those of the second. -/
theorem seedChainingAcrossAdjacentRanges : Obligations.SeedChainingAcrossAdjacentRanges := by
  refine ⟨fun w c T seed xs ys => ⟨rfl, rfl, List.foldl_append, List.foldl_append⟩, ?_⟩
  intro s i word a m n seed hsize hi hend ha hlen run hrun
  have hsize : s.params.memBytes ≤ 2 ^ 64 := hsize
  obtain ⟨c, update, hc, hexec⟩ := exec_crc_eq_runCrc_foldl hi
  have hrange (v : BitVec s.params.W) {x l : Nat} (hl : l < 2 ^ 64) (hx : l = 0 ∨ x < 2 ^ 64)
      (hr : x + l ≤ s.params.memBytes) : run v x l = .next { s with
        result := (s.storedBytes x l).foldl update v, err := .none, pend := none, draws := s.draws + l } :=
    (hrun v x l).trans ((hexec _).trans (runCrc_acceptedLatch hc word v hl hx hr))
  refine ⟨_, _, _, _, hrange seed (by omega) (.inr ha) (by omega), hrange _ (by omega) (by omega) hend, ?_⟩
  rw [hrange seed hlen (.inr ha) (by omega), storedBytes_add, List.foldl_append]

end Sys2Proof.Machine

/-! SUPPORT. The table engine (`43_table_engine.md`): the words and the completion of its three commands (R142, R144,
R145), what its table holds (R140, R148), and that its byte update is the bitwise engine's (R146). -/

namespace Sys2Proof

variable {w : CmdWord} {r : Row}

/-! ## The words of `cfg.tb`, `crc.tb` and `tblrd` -/

/-- R78: the two words of `cfg.tb`. -/
theorem decode_cfgTb (d : Dir) :
    decode (if d = .msbFirst then 0x00000011#32 else 0x00000031#32) = .instr (.cfgTb d) := by
  cases d <;> exact decode_of_hits (r := .cfgTb) (by decide)

theorem decode_illegal_of_op_cfgTb (ho : opField w = 1#4) (he : engField w = 1#1)
    (hw : w ∉ [0x00000011#32, 0x00000031#32]) : ∃ why, decode w = .illegal why :=
  decode_illegal_of_row (r := .cfgTb) ho he (Bool.eq_false_iff.2 fun h => hw (Row.mem_packWord_of_hits rfl h))

/-- R76 for a row that matches one word: any other word with its OP and ENG is illegal. -/
theorem decode_illegal_of_ne_pattern (hmask : r.mask = BitVec.allOnes 32) (ho : opField w = r.op)
    (he : engField w = r.eng) (hw : w ≠ r.pattern) : ∃ why, decode w = .illegal why :=
  decode_illegal_of_row ho he (Bool.eq_false_iff.2 fun h => hw ((Row.hits_iff_of_mask hmask w).1 h))

/-- OP = 5 is the row of `tblrd` alone. -/
theorem Row.eq_tblrd_of_op {r : Row} : r.op = 5#4 → r = .tblrd := by
  cases r <;> decide

theorem Row.hits_tblrd_iff : Row.tblrd.hits w = true ↔ w = BitVec.ofNat 32 (0x5 + 256 * (imm8Field w).toNat) := by
  rw [Row.hits_iff_packWord rfl rfl, packWord_eq_ofNat]
  rfl

/-- R78: the words of `tblrd`, by their indices. -/
theorem decode_tblrd (i : Fin 256) : decode (BitVec.ofNat 32 (0x5 + 256 * i.val)) = .instr (.tblrd i) := by
  have hword : encode (.tblrd i) = BitVec.ofNat 32 (0x5 + 256 * i.val) := 
    packWord_ofNat 5#4 0#1 (Nat.le_of_lt_succ i.isLt)
  rw [← hword, decode_of_hits (Laws.RowMatch.tblrd i)]
  simp [Laws.RowMatch.rowOf, Row.instr, encode]

theorem decode_illegal_of_op_tblrd (ho : opField w = 5#4)
    (hw : ∀ i : Fin 256, w ≠ BitVec.ofNat 32 (0x5 + 256 * i.val)) : ∃ why, decode w = .illegal why := by
  refine decode_illegal_iff.2 fun r => Bool.eq_false_iff.2 fun hr => ?_
  obtain ⟨-, -, -, -, -, hop⟩ := (Row.hits_iff r w).1 hr
  obtain rfl := Row.eq_tblrd_of_op (hop.symm.trans ho)
  exact hw ⟨(imm8Field w).toNat, (imm8Field w).isLt⟩ (Row.hits_tblrd_iff.1 hr)

end Sys2Proof

namespace Sys2Proof.Machine

variable {W : Nat} {s : State}

/-! ## Their completions -/

section Exec

variable {p : Pending s.params.W}

theorem exec_cfgTb (hp : s.pend = some p) (d : Dir) :
    exec (.cfgTb d) s = .next { s with
      tb := derive d p.val, table := buildTable (derive d p.val), err := .none, pend := none } :=
  (State.withPending_some hp _).trans (State.complete_eq _)

theorem exec_tblrd_of_not_valid (hp : s.pend = some p) (hv : s.tb.valid = false) (i : Fin 256) :
    exec (.tblrd i) s = .next { s with err := .nocfg, pend := none } :=
  (State.withPending_some hp _).trans ((if_neg (Bool.eq_false_iff.1 hv)).trans (s.raiseError_eq .nocfg))

theorem exec_tblrd_of_valid (hp : s.pend = some p) (hv : s.tb.valid = true) (i : Fin 256) :
    exec (.tblrd i) s = .next { s with result := s.table[i], err := .none, pend := none } :=
  (State.withPending_some hp _).trans ((if_pos hv).trans (s.completeWith_eq _))

end Exec

/-- Settles O28: the row of `cfg.tb` leaves only DIR free, the new configuration is the derived one, field by field, and
the table is the one built from it. -/
theorem cfgTbConstructsTheTableEngine : Obligations.CfgTbConstructsTheTableEngine := by
  refine ⟨decode_cfgTb, fun w => decode_illegal_of_op_cfgTb, fun s p d hp => ?_⟩
  have hW : 0 < s.params.W := Nat.lt_of_lt_of_le (by decide) s.params.width.eight_le
  obtain ⟨hvalid, hdir, hmsb, hlsb⟩ := derive_fields hW d p.val
  exact ⟨derive d p.val, buildTable (derive d p.val), exec_cfgTb hp d, hvalid, hdir, hmsb, hlsb,
    fun i => buildTable_getElem (derive d p.val) i.val i.isLt⟩

/-- Settles O31: OP = 5 leaves only the row of `tblrd`, whose mask leaves IMM8 free, and the completion has two
cases. -/
theorem tblrdReadsTheEntry : Obligations.TblrdReadsTheEntry :=
  ⟨decode_tblrd, fun _ => decode_illegal_of_op_tblrd,
    fun _ _ i hp => ⟨fun hv => exec_tblrd_of_not_valid hp hv i, fun hv => exec_tblrd_of_valid hp hv i⟩⟩

/-- R143: masking to 8 bits is the remainder by 256. -/
theorem tbIndex_val (c : EngineCfg W) (r : BitVec W) (b : Byte) :
    (tbIndex c r b).val = (dirBack c.dir r c.pack ^^^ b.setWidth W).toNat % 256 :=
  BitVec.toNat_setWidth ..

/-- Settles O30: only 0x00000012 matches the row of `crc.tb`, and its meaning has the three cases of `runCrc` on the
table engine's update. -/
theorem crcTbFoldsTheBytesOfTheRange : Obligations.CrcTbFoldsTheBytesOfTheRange := by
  refine ⟨decode_of_hits (r := .crcTb) (by decide), fun w => decode_illegal_of_ne_pattern (r := .crcTb) rfl,
    fun s p hp => ⟨runCrc_of_not_valid hp, runCrc_of_past_end hp, fun hv hr => ?_⟩⟩
  exact ⟨s.dataBytes p, tbByte s.tb s.table, s.dataBytes_length p, fun _ => s.dataBytes_getElem? p,
    fun r b => ⟨tbIndex s.tb r b, tbIndex_val s.tb r b, rfl⟩, runCrc_of_legal hp hv hr⟩

/-! ## The table update is the bitwise update (R146) -/

/-- A data byte where the combine step of R125 puts it, at the pack offset. -/
def byteAtPack (c : EngineCfg W) (b : Byte) : BitVec W := shl (b.setWidth W) c.pack

/-- The byte of the register that stands at the pack offset, which is the one the table's index takes (R143). -/
def leadingByte (c : EngineCfg W) (r : BitVec W) : Byte := (dirBack c.dir r c.pack).setWidth 8

theorem bwByte_eq_inner8 (c : EngineCfg W) (r : BitVec W) (b : Byte) : bwByte c r b = inner8 c (r ^^^ byteAtPack c b) :=
  rfl

theorem byteAtPack_xor (c : EngineCfg W) (a b : Byte) : byteAtPack c (a ^^^ b) = byteAtPack c a ^^^ byteAtPack c b := by
  rw [byteAtPack, BitVec.setWidth_xor, shl_eq, BitVec.shiftLeft_xor_distrib, ← shl_eq, ← shl_eq, byteAtPack, byteAtPack]

theorem ofNat_tbIndex (hW : 8 ≤ W) (c : EngineCfg W) (r : BitVec W) (b : Byte) :
    BitVec.ofNat 8 (tbIndex c r b).val = leadingByte c r ^^^ b := by
  have hindex : BitVec.ofNat 8 (tbIndex c r b).val = (dirBack c.dir r c.pack ^^^ b.setWidth W).setWidth 8 :=
    (BitVec.ofNat_toNat ..).trans (BitVec.setWidth_eq _)
  rw [hindex, BitVec.setWidth_xor, BitVec.setWidth_setWidth_of_le b hW, BitVec.setWidth_eq, leadingByte]

/-- A byte at the pack offset is gone after a shift by eight places. -/
theorem dirShift_eight_byteAtPack (hW : 8 ≤ W) (d : Dir) (P : BitVec W) (b : Byte) :
    dirShift d (byteAtPack (derive d P) b) 8 = 0 := by
  cases d with
  | msbFirst =>
    calc dirShift .msbFirst (dirShift .msbFirst (b.setWidth W) (W - 8)) 8
      _ = dirShift .msbFirst (b.setWidth W) (W - 8 + 8) := dirShift_dirShift ..
      _ = 0 := dirShift_of_le .msbFirst _ (Nat.sub_add_cancel hW).ge
  | lsbFirst =>
    have hlow : byteAtPack (derive .lsbFirst P) b = b.setWidth W := dirShift_zero .msbFirst _
    rw [hlow]
    refine BitVec.eq_of_getLsbD_eq fun i _ => ?_
    simp [dirShift, getLsbD_shr]

/-- The leading byte is the eight bits of the register from the pack offset up. -/
theorem getLsbD_leadingByte (d : Dir) (P r : BitVec W) {i : Nat} (hi : i < 8) :
    (leadingByte (derive d P) r).getLsbD i = r.getLsbD ((derive d P).pack + i) := by
  have hback : (dirBack d r (derive d P).pack).getLsbD i = r.getLsbD ((derive d P).pack + i) := by
    cases d with
    | msbFirst => exact getLsbD_shr r (W - 8) i
    | lsbFirst =>
      have hself : dirBack .lsbFirst r (derive .lsbFirst P).pack = r := dirShift_zero .msbFirst r
      have hplace : (derive .lsbFirst P).pack + i = i := Nat.zero_add i
      rw [hself, hplace]
  rw [leadingByte, derive_dir, BitVec.getLsbD_setWidth, decide_eq_true hi, Bool.true_and, hback]

theorem getLsbD_byteAtPack (hW : 8 ≤ W) (d : Dir) (P : BitVec W) (b : Byte) {i : Nat} (hi : i < 8) :
    (byteAtPack (derive d P) b).getLsbD ((derive d P).pack + i) = b.getLsbD i := by
  have hpack := derive_pack_add_eight_le hW d P
  have hin : (derive d P).pack + i < W := by omega
  have hiW : i < W := by omega
  rw [byteAtPack, getLsbD_shl, Nat.add_sub_cancel_left, BitVec.getLsbD_setWidth]
  simp [hin, hiW]

/-- While eight bit steps run, the mask sees the eight bits from the pack offset up, in the direction's order. -/
theorem exists_getLsbD_maskBit (hW : 8 ≤ W) (d : Dir) (P : BitVec W) {k : Nat} (hk : k < 8) :
    ∃ i < 8, ∀ x : BitVec W, (dirShift d x k).getLsbD (maskBit W d) = x.getLsbD ((derive d P).pack + i) := by
  cases d with
  | msbFirst =>
    refine ⟨7 - k, by omega, fun x => ?_⟩
    have htop : W - 1 < W := by omega
    have hin : k ≤ W - 1 := by omega
    have hplace : W - 1 - k = (derive .msbFirst P).pack + (7 - k) := by
      show W - 1 - k = W - 8 + (7 - k)
      omega
    rw [dirShift, getLsbD_shl, maskBit, decide_eq_true htop, decide_eq_true hin, hplace, Bool.true_and, Bool.true_and]
  | lsbFirst =>
    have hplace : (derive .lsbFirst P).pack + k = k := Nat.zero_add k
    exact ⟨k, hk, fun x => (getLsbD_shr x k 0).trans (by rw [hplace, Nat.add_zero])⟩

/-- R130 for either direction: while the eight bits from the pack offset up are 0, eight bit steps only shift. -/
theorem inner8_eq_dirShift (hW : 8 ≤ W) (d : Dir) (P : BitVec W) {x : BitVec W}
    (h : ∀ i < 8, x.getLsbD ((derive d P).pack + i) = false) : inner8 (derive d P) x = dirShift d x 8 := by
  refine bitSteps_eq_dirShift (Nat.lt_of_lt_of_le (by decide) hW) d P fun k hk => ?_
  obtain ⟨i, hi, hseen⟩ := exists_getLsbD_maskBit hW d P hk
  exact (hseen x).trans (h i hi)

/-- R146: the eight bit steps only shift what is left of the register without its leading byte. -/
theorem inner8_xor_leadingByte (hW : 8 ≤ W) (d : Dir) (P r : BitVec W) :
    inner8 (derive d P) (r ^^^ byteAtPack (derive d P) (leadingByte (derive d P) r)) = dirShift d r 8 := by
  rw [inner8_eq_dirShift hW d P fun i hi => ?_, dirShift_xor, dirShift_eight_byteAtPack hW]
  · exact BitVec.xor_zero
  · rw [BitVec.getLsbD_xor, getLsbD_byteAtPack hW d P _ hi, getLsbD_leadingByte d P r hi, Bool.xor_self]

/-- The register with its data byte, as what is left without a byte `q`, and `q` with the data byte. -/
theorem xor_byteAtPack_split (c : EngineCfg W) (r : BitVec W) (q b : Byte) :
    r ^^^ byteAtPack c b = (r ^^^ byteAtPack c q) ^^^ byteAtPack c (q ^^^ b) := by
  rw [byteAtPack_xor, BitVec.xor_assoc, ← BitVec.xor_assoc (byteAtPack c q), BitVec.xor_self, BitVec.zero_xor]

/-- R140: the entry the table update of R143 looks up. -/
theorem buildTable_tbIndex (hW : 8 ≤ W) (c : EngineCfg W) (r : BitVec W) (b : Byte) :
    (buildTable c)[tbIndex c r b] = inner8 c (byteAtPack c (leadingByte c r ^^^ b)) := by
  have hentry := buildTable_getElem c (tbIndex c r b).val (tbIndex c r b).isLt
  rw [ofNat_tbIndex hW, bwByte_eq_inner8, BitVec.zero_xor] at hentry
  exact hentry

/-- R146 for one byte: the leading byte with the data byte gives the table's entry, the rest of the register the
shift. -/
theorem tbByte_buildTable (hW : 8 ≤ W) (d : Dir) (P r : BitVec W) (b : Byte) :
    tbByte (derive d P) (buildTable (derive d P)) r b = bwByte (derive d P) r b := by
  have hlin (x y : BitVec W) : inner8 (derive d P) (x ^^^ y) = inner8 (derive d P) x ^^^ inner8 (derive d P) y :=
    bitSteps_xor (Nat.lt_of_lt_of_le (by decide) hW) d P 8 x y
  rw [tbByte, derive_dir, buildTable_tbIndex hW, bwByte_eq_inner8,
    xor_byteAtPack_split _ r (leadingByte (derive d P) r) b, hlin, inner8_xor_leadingByte hW]

/-- R146 for a sequence of bytes. -/
theorem tbCompute_buildTable (hW : 8 ≤ W) (d : Dir) (P : BitVec W) :
    tbCompute (derive d P) (buildTable (derive d P)) = bwCompute (derive d P) := by
  have hbyte : tbByte (derive d P) (buildTable (derive d P)) = bwByte (derive d P) :=
    funext₂ (tbByte_buildTable hW d P)
  funext seed bytes
  rw [tbCompute, hbyte, bwCompute]

/-- R30: an engine that has been constructed has a derived configuration. -/
theorem EngineCfg.Derived.exists_derive {c : EngineCfg W} (h : c.Derived) (hv : c.valid = true) :
    ∃ d P, c = derive d P := by
  obtain rfl | ⟨P, hP⟩ := h
  · cases hv
  · exact ⟨c.dir, P, hP⟩

/-- An engine that was never constructed computes nothing, so `crc.*` does not depend on how it would. -/
theorem runCrc_congr {c : EngineCfg s.params.W} {f g : BitVec s.params.W → List Byte → BitVec s.params.W}
    (h : c.valid = true → f = g) : s.runCrc c f = s.runCrc c g := by
  cases hv : c.valid with
  | true => rw [h hv]
  | false =>
    cases hp : s.pend with
    | none => exact (State.withPending_none hp _).trans (State.withPending_none hp _).symm
    | some p => rw [runCrc_of_not_valid hp hv, runCrc_of_not_valid hp hv]

/-- In a well-formed state a constructed table engine computes the bitwise CRC of its configuration. -/
theorem State.Wf.tbCompute_eq (h : s.Wf) (hv : s.tb.valid = true) : tbCompute s.tb s.table = bwCompute s.tb := by
  obtain ⟨d, P, hc⟩ := h.tbDerived.exists_derive hv
  rw [h.tableBuilt hv, hc, tbCompute_buildTable s.params.width.eight_le]

/-- Settles O46: the byte updates are the same function, so the folds are, and a well-formed state has the table of that
function. -/
theorem tableEngineEqualsBitwiseEngine : Obligations.TableEngineEqualsBitwiseEngine := by
  refine ⟨fun w d P seed bytes => ?_, fun s hwf heq => ?_⟩
  · rw [tbCompute_buildTable w.eight_le]
  · calc exec .crcTb s
      _ = s.runCrc s.tb (bwCompute s.tb) := runCrc_congr hwf.tbCompute_eq
      _ = exec .crcBw s := by rw [← heq]; rfl

/-! ## The entries of the table (R148) -/

/-- R148: the entry is the CRC of its index. -/
theorem State.Wf.table_getElem (h : s.Wf) (hv : s.tb.valid = true) (i : Fin 256) :
    s.table[i] = bwCompute s.tb 0 [BitVec.ofNat 8 i.val] := by
  rw [h.tableBuilt hv]
  exact buildTable_getElem s.tb i.val i.isLt

/-- A range of one byte that the host has not written in flight is read as the byte stored. -/
theorem dataBytes_of_len_one {p : Pending s.params.W} (hl : p.len = 1) (h : ∀ c ∈ p.held, ¬ p.covers c.1) :
    s.dataBytes p = [Memory.read s.mem p.addr.toNat] := by
  have hheld : ∀ c ∈ p.held, c.1 ≠ p.addr.toNat := fun c hc hca => h c hc (by simp [Pending.covers, hca, hl])
  have hread : s.memRead p 0 p.addr.toNat = Memory.read s.mem p.addr.toNat := by
    rw [State.memRead, State.heldValues_of_not_held hheld]
  rw [State.dataBytes, hl]
  exact congrArg (fun b => [b]) hread

/-- Settles O47: the entry was built as that CRC, and over the one byte `crc.bw` computes the same from seed 0. -/
theorem tableEntryIsTheCrcOfItsIndex : Obligations.TableEntryIsTheCrcOfItsIndex := by
  intro s i hwf hv
  have hentry := hwf.table_getElem hv i
  refine ⟨hentry, fun p hp hkept heq hval hlen haddr hmem => ?_⟩
  have hrange : p.addr.toNat + p.len.toNat ≤ s.params.memBytes := by
    rw [hlen]
    exact haddr
  have hbytes : s.dataBytes p = [BitVec.ofNat 8 i.val] :=
    (dataBytes_of_len_one hlen (hkept p hp)).trans (congrArg (fun b => [b]) hmem)
  refine ⟨_, _, exec_tblrd_of_valid hp hv i, runCrc_of_legal hp (heq ▸ hv) (.inr hrange), congrArg BitVec.toNat ?_⟩
  show s.table[i] = bwCompute s.bw p.val (s.dataBytes p)
  rw [hbytes, hval, heq, hentry]

/-! ## No law of direction (R150) -/

/-- R130: the byte 0 leaves the zero register, whatever the polynomial. -/
theorem bwCompute_zero_byte (hW : 0 < W) (d : Dir) (P : BitVec W) : bwCompute (derive d P) 0 [0x00#8] = 0 := by
  have hzero : 0#W ^^^ byteAtPack (derive d P) 0#8 = 0#W := by
    rw [byteAtPack, BitVec.setWidth_zero, shl_eq, BitVec.zero_shiftLeft, BitVec.xor_self]
  calc bwCompute (derive d P) 0 [0x00#8]
    _ = inner8 (derive d P) (0#W ^^^ byteAtPack (derive d P) 0#8) := rfl
    _ = 0 := by rw [hzero]; exact inner8_zero hW d P

/-- Settles O49: the zero byte is the linear case, the other counterexample is run. -/
theorem directionsCanAgree : Obligations.DirectionsCanAgree :=
  ⟨fun w P =>
    have hW : 0 < w.bits := Nat.lt_of_lt_of_le (by decide) w.eight_le
    ⟨bwCompute_zero_byte hW .msbFirst P, bwCompute_zero_byte hW .lsbFirst P⟩,
    by decide, by decide, by decide⟩

end Sys2Proof.Machine

/-! SUPPORT. Errors (`60_exceptions.md`): every completion either raises an error, which reaches ERR and the latch alone
(R171), or ends with ERR = NONE; and which code comes first (R172). -/

namespace Sys2Proof.Machine

variable {s t : State}

/-! ## A failed command has no effect besides ERR (R171) -/

/-- A completion from `s` with the outcome `r` either raises an error of `s` itself, before it has written anything, or
ends with ERR = NONE. -/
def State.RaisesOrSucceeds (s : State) (r : Result) : Prop :=
  (∃ e, r = s.raiseError e) ∨ ∃ t, r = .next t ∧ t.err = .none

theorem State.RaisesOrSucceeds.eq_of_err (h : s.RaisesOrSucceeds (.next t)) (he : t.err ≠ .none) :
    t = { s with err := t.err, pend := none } := by
  obtain ⟨e, hr⟩ | ⟨u, hu, hnone⟩ := h
  · rw [State.raiseError_eq] at hr
    cases hr
    rfl
  · cases hu
    exact absurd hnone he

theorem runShift_raisesOrSucceeds {p : Pending s.params.W} (hp : s.pend = some p) (c : EngineCfg s.params.W) (n : Nat) :
    s.RaisesOrSucceeds (s.runShift c n) := by
  rw [State.runShift_eq hp]
  split
  · exact .inr ⟨_, State.completeWith_eq _ _, rfl⟩
  · exact .inl ⟨.nocfg, rfl⟩

/-- Both checks of a `crc.*` come before its byte loop, so an error is raised before a draw is used. -/
theorem runCrc_raisesOrSucceeds {p : Pending s.params.W} (hp : s.pend = some p) (c : EngineCfg s.params.W)
    (f : BitVec s.params.W → List Byte → BitVec s.params.W) : s.RaisesOrSucceeds (s.runCrc c f) := by
  rw [State.runCrc_eq hp]
  split
  · exact .inl ⟨.nocfg, rfl⟩
  split
  · exact .inl ⟨.range, rfl⟩
  · exact .inr ⟨_, State.completeWith_eq _ _, rfl⟩

theorem exec_raisesOrSucceeds {p : Pending s.params.W} (hp : s.pend = some p) (i : Instr) :
    s.RaisesOrSucceeds (exec i s) := by
  cases i with
  | cfgBw d => exact .inr ⟨_, exec_cfgBw hp d, rfl⟩
  | cfgTb d => exact .inr ⟨_, exec_cfgTb hp d, rfl⟩
  | crcBw => exact runCrc_raisesOrSucceeds hp s.bw _
  | crcTb => exact runCrc_raisesOrSucceeds hp s.tb _
  | rev => exact .inr ⟨_, exec_rev hp, rfl⟩
  | shiftBw n => exact runShift_raisesOrSucceeds hp s.bw n
  | shiftTb n => exact runShift_raisesOrSucceeds hp s.tb n
  | tblrd k =>
    cases hv : s.tb.valid with
    | false => exact .inl ⟨.nocfg, exec_tblrd_of_not_valid hp hv k⟩
    | true => exact .inr ⟨_, exec_tblrd_of_valid hp hv k, rfl⟩

theorem executorTurn_raisesOrSucceeds (hb : s.busy = true) : s.RaisesOrSucceeds s.executorTurn := by
  obtain ⟨hidle, -⟩ | ⟨p, i, hp, -, he⟩ | ⟨p, why, -, -, he⟩ := executorTurn_cases s
  · rw [State.busy_eq_false.2 hidle] at hb
    cases hb
  · rw [he]
    exact exec_raisesOrSucceeds hp i
  · exact .inl ⟨.illegal, he⟩

/-- Settles O34: a completion that does not end with ERR = NONE has raised its error from the state before it. -/
theorem failedCommandChangesOnlyErr : Obligations.FailedCommandChangesOnlyErr := by
  intro s t hb ht he
  have h : s.RaisesOrSucceeds s.executorTurn := executorTurn_raisesOrSucceeds hb
  rw [ht] at h
  exact h.eq_of_err he

/-! ## Priority (R172) -/

/-- Settles O36: decode comes first, `runCrc` asks for the engine before it checks the range, a dropped CMD write sets
OVR alone, and reset does not look at the latch. -/
theorem errorPriority : Obligations.ErrorPriority := by
  intro s p hp
  refine ⟨fun why hd => ?_, fun hd hv _ _ => ?_, fun hd hv _ _ => ?_, regWrite_cmd_of_busy hp, s.resetBlock, rfl, ?_⟩
  · exact (executorTurn_illegal hp hd).trans (s.raiseError_eq .illegal)
  · exact (executorTurn_instr hp hd).trans (runCrc_of_not_valid hp hv)
  · exact (executorTurn_instr hp hd).trans (runCrc_of_not_valid hp hv)
  · simp

end Sys2Proof.Machine

/-! SUPPORT. Reset gives the block its reset values (`70_reset_and_hazards.md` R190), and the completion of a command
does not look at VAL, ADDR and LEN, which the host may rewrite during it (R196). -/

namespace Sys2Proof.Machine

variable {s : State}

/-! ## Reset -/

/-- The step of a schedule that names reset next. -/
theorem step_of_reset {rest : List Turn} (h : s.turns = .reset :: rest) :
    step s = .next (s.setTurns rest).resetBlock := by
  rw [step_eq_takeTurn, State.mover, h]
  rfl

theorem resetBlock_eq (s : State) : ∃ T, s.resetBlock = { s with
    val := 0, addr := 0, len := 0, result := 0, err := .none, ovr := false, pend := none, table := T,
    bw := EngineCfg.unconfigured s.params.W, tb := EngineCfg.unconfigured s.params.W } :=
  ⟨s.resetBlock.table, rfl⟩

/-- Settles O23: the reset turn resets the block, and the two configurations are those of an unconfigured engine. -/
theorem resetGivesTheResetValues : Obligations.ResetGivesTheResetValues := by
  intro s rest h
  obtain ⟨T, hT⟩ := resetBlock_eq (s.setTurns rest)
  exact ⟨T, (step_of_reset h).trans (congrArg Host.Outcome.next hT)⟩

/-! ## The operand registers during a command -/

/-- The state with other values in VAL, ADDR and LEN. -/
def State.withOperands (s : State) (v : BitVec s.params.W) (a l : BitVec 64) : State :=
  { s with val := v, addr := a, len := l }

/-- The completion `m`, as a function of VAL, ADDR and LEN, ends the command, leaves these three as they are and gives
each other field of `s` a value that does not depend on them. -/
def State.CompletesForAllOperands (s : State) (m : BitVec s.params.W → BitVec 64 → BitVec 64 → Result) : Prop :=
  ∃ x e b c T d, ∀ v a l, m v a l = .next { s with
    val := v, addr := a, len := l, result := x, err := e, bw := b, tb := c, table := T, pend := none, draws := d }

section

variable {p : Pending s.params.W}

theorem runShift_completesForAllOperands (hp : s.pend = some p) (c : EngineCfg s.params.W) (n : Nat) :
    s.CompletesForAllOperands fun v a l => (s.withOperands v a l).runShift c n := by
  cases hc : c.valid with
  | false =>
    exact ⟨s.result, .nocfg, s.bw, s.tb, s.table, s.draws,
      fun v a l => runShift_of_not_valid (s := s.withOperands v a l) hp hc n⟩
  | true =>
    exact ⟨dirShift c.dir p.val n, .none, s.bw, s.tb, s.table, s.draws,
      fun v a l => runShift_of_valid (s := s.withOperands v a l) hp hc n⟩

/-- The seed, the range and the bytes of a `crc.*` are those of the latch (R126, R144). -/
theorem runCrc_completesForAllOperands (hp : s.pend = some p) (c : EngineCfg s.params.W)
    (f : BitVec s.params.W → List Byte → BitVec s.params.W) :
    s.CompletesForAllOperands fun v a l => (s.withOperands v a l).runCrc c f := by
  cases hc : c.valid with
  | false =>
    exact ⟨s.result, .nocfg, s.bw, s.tb, s.table, s.draws,
      fun v a l => runCrc_of_not_valid (s := s.withOperands v a l) hp hc⟩
  | true =>
    by_cases hr : p.len = 0 ∨ p.addr.toNat + p.len.toNat ≤ s.params.memBytes
    · exact ⟨f p.val (s.dataBytes p), .none, s.bw, s.tb, s.table, s.draws + p.len.toNat,
        fun v a l => runCrc_of_legal (s := s.withOperands v a l) hp hc hr⟩
    · obtain ⟨hlen, hend⟩ := not_or.1 hr
      exact ⟨s.result, .range, s.bw, s.tb, s.table, s.draws,
        fun v a l => runCrc_of_past_end (s := s.withOperands v a l) hp hc hlen (Nat.lt_of_not_le hend)⟩

/-- R196: every command completes on the copies in the latch. -/
theorem exec_completesForAllOperands (hp : s.pend = some p) (i : Instr) :
    s.CompletesForAllOperands fun v a l => exec i (s.withOperands v a l) := by
  cases i with
  | cfgBw d =>
    exact ⟨s.result, .none, derive d p.val, s.tb, s.table, s.draws,
      fun v a l => exec_cfgBw (s := s.withOperands v a l) hp d⟩
  | cfgTb d =>
    exact ⟨s.result, .none, s.bw, derive d p.val, buildTable (derive d p.val), s.draws,
      fun v a l => exec_cfgTb (s := s.withOperands v a l) hp d⟩
  | crcBw => exact runCrc_completesForAllOperands hp s.bw (bwCompute s.bw)
  | crcTb => exact runCrc_completesForAllOperands hp s.tb (tbCompute s.tb s.table)
  | rev =>
    exact ⟨bitReverse p.val, .none, s.bw, s.tb, s.table, s.draws,
      fun v a l => exec_rev (s := s.withOperands v a l) hp⟩
  | shiftBw n => exact runShift_completesForAllOperands hp s.bw n
  | shiftTb n => exact runShift_completesForAllOperands hp s.tb n
  | tblrd k =>
    cases hv : s.tb.valid with
    | false =>
      exact ⟨s.result, .nocfg, s.bw, s.tb, s.table, s.draws,
        fun v a l => exec_tblrd_of_not_valid (s := s.withOperands v a l) hp hv k⟩
    | true =>
      exact ⟨s.table[k], .none, s.bw, s.tb, s.table, s.draws,
        fun v a l => exec_tblrd_of_valid (s := s.withOperands v a l) hp hv k⟩

end

/-- Settles O10: the completion from `s` and the one after the write are two cases of one equation that holds for all
operand values. -/
theorem operandWritesCommuteWithCompletion : Obligations.OperandWritesCommuteWithCompletion := by
  intro i s t r v hr hb ht
  obtain ⟨p, hp⟩ := State.busy_eq_true.1 hb
  obtain ⟨x, e, b, c, T, d, h⟩ := exec_completesForAllOperands hp i
  cases (h s.val s.addr s.len).symm.trans ht
  obtain rfl | rfl | rfl := hr
  · exact h (v.setWidth s.params.W) s.addr s.len
  · exact h s.val v s.len
  · exact h s.val s.addr v

end Sys2Proof.Machine

/-! SUPPORT. Decoding and encoding are inverse (`30_encoding.md` R74, R75), and how many words are legal. -/

namespace Sys2Proof

open Laws.RowMatch (rowOf)

variable {w : CmdWord} {i : Instr}

/-! ## Decoding an encoded command -/

/-- R74: a command's word matches the command's own row. -/
theorem hits_encode (i : Instr) : (rowOf i).hits (encode i) = true := by
  cases i with
  | cfgBw d => exact Laws.RowMatch.cfgBw d
  | cfgTb d => exact Laws.RowMatch.cfgTb d
  | crcBw => exact Laws.RowMatch.crcBw
  | crcTb => exact Laws.RowMatch.crcTb
  | rev => exact Laws.RowMatch.rev
  | shiftBw n => exact Laws.RowMatch.shiftBw n
  | shiftTb n => exact Laws.RowMatch.shiftTb n
  | tblrd k => exact Laws.RowMatch.tblrd k

/-- R75: the row reads the operands back from the fields they were put in. IMM8 holds every count that is allowed. -/
theorem rowOf_instr_encode (h : i.wellFormed = true) : (rowOf i).instr (encode i) = i := by
  cases i with
  | cfgBw d => simp [rowOf, Row.instr, encode]
  | cfgTb d => simp [rowOf, Row.instr, encode]
  | crcBw => rfl
  | crcTb => rfl
  | rev => rfl
  | shiftBw n => simp [rowOf, Row.instr, encode, toNat_ofNat_eight (of_decide_eq_true h)]
  | shiftTb n => simp [rowOf, Row.instr, encode, toNat_ofNat_eight (of_decide_eq_true h)]
  | tblrd k => simp [rowOf, Row.instr, encode]

theorem decode_encode (h : i.wellFormed = true) : decode (encode i) = .instr i := by
  rw [decode_of_hits (hits_encode i), rowOf_instr_encode h]

/-- Settles O2: the command's own row matches its word, and reads its operands back. -/
theorem decodeOfEncodeIsTheCommand : Obligations.DecodeOfEncodeIsTheCommand :=
  fun _ => decode_encode

/-! ## Encoding a decoded word -/

/-- The word of what a row reads: OP and ENG of the row, and the fields the row reads. -/
theorem encode_instr (r : Row) (w : CmdWord) :
    encode (r.instr w) =
      packWord r.op r.eng (if r.anyDir then dirField w else 0#1) (if r.anyImm then imm8Field w else 0#8) := by
  cases r <;> simp [Row.instr, encode, Row.op, Row.eng, Row.anyDir, Row.anyImm]

/-- R74: the fields of a matching word that the row does not read are those of the row. -/
theorem eq_packWord_of_hits {r : Row} (h : r.hits w = true) :
    w = packWord r.op r.eng (if r.anyDir then dirField w else 0#1) (if r.anyImm then imm8Field w else 0#8) := by
  obtain ⟨hrsv1, himm, hrsv0, hdir, heng, hop⟩ := (Row.hits_iff r w).1 h
  have hdir' : (if r.anyDir then dirField w else 0#1) = dirField w := by
    split
    · rfl
    · next hfix => exact (hdir (Bool.eq_false_iff.2 hfix)).symm
  have himm' : (if r.anyImm then imm8Field w else 0#8) = imm8Field w := by
    split
    · rfl
    · next hfix => exact (himm (Bool.eq_false_iff.2 hfix)).symm
  rw [hdir', himm', packWord_eq, ← hrsv1, ← hrsv0, ← heng, ← hop, joinFields_fields]

theorem instr_wellFormed (r : Row) (w : CmdWord) : (r.instr w).wellFormed = true := by
  have himm : (imm8Field w).toNat ≤ 255 := Nat.le_of_lt_succ (imm8Field w).isLt
  cases r with
  | shiftBw | shiftTb => exact decide_eq_true himm
  | cfgBw | cfgTb | crcBw | crcTb | rev | tblrd => rfl

theorem encode_of_decode (h : decode w = .instr i) : i.wellFormed = true ∧ encode i = w := by
  obtain ⟨r, hr, hd⟩ | ⟨-, hd⟩ := decode_cases w
  · cases hd.symm.trans h
    exact ⟨instr_wellFormed r w, (encode_instr r w).trans (eq_packWord_of_hits hr).symm⟩
  · cases hd.symm.trans h

/-- Settles O3: a matching word has the fields its row reads, and for the rest those of the row. -/
theorem encodeOfDecodeIsTheWord : Obligations.EncodeOfDecodeIsTheWord :=
  fun _ _ => encode_of_decode

/-- Settles O4: two rows that match one word have its OP and ENG in common. -/
theorem atMostOneRowMatchesAWord : Obligations.AtMostOneRowMatchesAWord := by
  intro w r r' h h'
  obtain ⟨-, -, -, -, he, ho⟩ := (Row.hits_iff r w).1 h
  obtain ⟨-, -, -, -, he', ho'⟩ := (Row.hits_iff r' w).1 h'
  exact Row.eq_of_op_eng (ho.symm.trans ho') (he.symm.trans he')

/-! ## The legal words (`95_test_vectors.md` V-ERR-28) -/

theorem decode_instr_iff : (∃ i, decode w = .instr i) ↔ ∃ i, i.wellFormed = true ∧ encode i = w :=
  ⟨fun ⟨i, h⟩ => ⟨i, encode_of_decode h⟩, fun ⟨i, h, hw⟩ => ⟨i, hw ▸ decode_encode h⟩⟩

/-- The well-formed commands, row by row. -/
def allCommands : List Instr :=
  [.cfgBw .msbFirst, .cfgBw .lsbFirst, .cfgTb .msbFirst, .cfgTb .lsbFirst, .crcBw, .crcTb, .rev] ++
    ((List.range 256).map .shiftBw ++ ((List.range 256).map .shiftTb ++ (List.finRange 256).map .tblrd))

theorem mem_allCommands (i : Instr) : i ∈ allCommands ↔ i.wellFormed = true := by
  cases i with
  | cfgBw d | cfgTb d => cases d <;> simp [allCommands, Instr.wellFormed]
  | crcBw | crcTb | rev => simp [allCommands, Instr.wellFormed]
  | shiftBw n | shiftTb n => simp [allCommands, Instr.wellFormed, Nat.lt_succ_iff]
  | tblrd k => simp [allCommands, Instr.wellFormed]

theorem length_allCommands : allCommands.length = 775 := by simp [allCommands]

theorem nodup_allCommands : allCommands.Nodup := by
  have hbw : ((List.range 256).map Instr.shiftBw).Nodup := List.nodup_range.map fun _ _ => Instr.shiftBw.inj
  have htb : ((List.range 256).map Instr.shiftTb).Nodup := List.nodup_range.map fun _ _ => Instr.shiftTb.inj
  have hrd : ((List.finRange 256).map Instr.tblrd).Nodup := (List.nodup_finRange 256).map fun _ _ => Instr.tblrd.inj
  have hrest := hbw.append (htb.append hrd (by simp [List.Disjoint])) (by simp [List.Disjoint])
  exact List.Nodup.append (by decide) hrest (by simp [List.Disjoint])

/-- Settles O6: the legal words are those of the well-formed commands, and different commands have different words. -/
theorem legalWordsNumberSevenHundredSeventyFive : Obligations.LegalWordsNumberSevenHundredSeventyFive := by
  refine ⟨allCommands.map encode, ?_, by rw [List.length_map, length_allCommands], fun w => ?_⟩
  · refine nodup_allCommands.map_on fun i hi j hj heq => ?_
    have hdecode := decode_encode ((mem_allCommands i).1 hi)
    rw [heq, decode_encode ((mem_allCommands j).1 hj)] at hdecode
    exact (Decoded.instr.inj hdecode).symm
  · simp [decode_instr_iff, mem_allCommands]

/-! ## The words of R78 -/

/-- Settles O1: each word is that of its command. -/
theorem tableWordsDecodeToTheirCommands : Obligations.TableWordsDecodeToTheirCommands :=
  ⟨decode_encode (i := .cfgBw .msbFirst) rfl, decode_encode (i := .cfgBw .lsbFirst) rfl,
    decode_encode (i := .cfgTb .msbFirst) rfl, decode_encode (i := .cfgTb .lsbFirst) rfl,
    decode_encode (i := .crcBw) rfl, decode_encode (i := .crcTb) rfl, decode_encode (i := .rev) rfl,
    decode_encode (i := .shiftBw 4) rfl, decode_encode (i := .shiftTb 8) rfl, decode_encode (i := .tblrd 1) rfl,
    decode_encode (i := .tblrd 255) rfl⟩

end Sys2Proof

/-! SUPPORT. The assembler (`30_encoding.md` R78, R79): the word of each command line, and the lines it refuses. -/

namespace Sys2Proof.Machine

/-! ## The words of the command lines (R78) -/

/-- Opcode and operand of a word do not overlap, so on the 64-bit transfer the one is ORed to the other. -/
theorem setWidth_packWord_ofNat (op : BitVec 4) (eng : BitVec 1) {n : Nat} (hn : n ≤ 255) :
    (packWord op eng 0#1 (BitVec.ofNat 8 n)).setWidth 64 =
      BitVec.ofNat 64 (op.toNat + 16 * eng.toNat) ||| BitVec.ofNat 64 (n * 256) := by
  have hop := op.isLt
  have heng := eng.isLt
  have hor : n * 256 ||| (op.toNat + 16 * eng.toNat) = n * 256 + (op.toNat + 16 * eng.toNat) := by
    rw [Nat.mul_comm]
    exact (Nat.two_pow_add_eq_or_of_lt (i := 8) (by omega) n).symm
  have hlow : (op.toNat + 16 * eng.toNat) % 2 ^ 64 = op.toNat + 16 * eng.toNat := by omega
  have hhigh : n * 256 % 2 ^ 64 = n * 256 := by omega
  rw [packWord_ofNat op eng hn]
  refine BitVec.eq_of_toNat_eq ?_
  simp only [BitVec.toNat_setWidth, BitVec.toNat_or, BitVec.toNat_ofNat]
  rw [hlow, hhigh, Nat.or_comm, hor]
  omega

theorem issue_shiftBw {n : Nat} (hn : n ≤ 255) :
    issue (.shiftBw n) = .write .cmd (0x00000004#64 ||| BitVec.ofNat 64 (n * 256)) :=
  congrArg (HostAction.write .cmd) (setWidth_packWord_ofNat 4#4 0#1 hn)

theorem issue_shiftTb {n : Nat} (hn : n ≤ 255) :
    issue (.shiftTb n) = .write .cmd (0x00000014#64 ||| BitVec.ofNat 64 (n * 256)) :=
  congrArg (HostAction.write .cmd) (setWidth_packWord_ofNat 4#4 1#1 hn)

theorem issue_tblrdOf {n : Nat} (hn : n ≤ 255) :
    issue (tblrdOf n) = .write .cmd (0x00000005#64 ||| BitVec.ofNat 64 (n * 256)) := by
  have hindex : BitVec.ofNat 8 (n % 256) = BitVec.ofNat 8 n := congrArg _ (Nat.mod_eq_of_lt (Nat.lt_succ_of_le hn))
  have hword : encode (tblrdOf n) = packWord 5#4 0#1 0#1 (BitVec.ofNat 8 n) := congrArg (packWord _ _ _) hindex
  exact congrArg (HostAction.write .cmd) (by rw [hword, setWidth_packWord_ofNat 5#4 0#1 hn]; rfl)

/-! ## Accepted and refused lines -/

/-- The assembler answers with a line's transactions, where they are `xs`, or refuses it. -/
theorem assembleLine_eq_some {l : AsmLine} {xs : List HostAction} (h : l.wellFormed = true) (hxs : lineActions l = xs) :
    assembleLine l = some xs := by
  rw [assembleLine, if_pos h, hxs]

theorem assembleLine_eq_none {l : AsmLine} (h : l.wellFormed = false) : assembleLine l = none :=
  if_neg (Bool.eq_false_iff.1 h)

/-- Settles O55: the check of a line is that of its IMM8 operand, and its one transaction carries the encoded word. -/
theorem assemblerEncodesCommandLines : Obligations.AssemblerEncodesCommandLines := by
  refine ⟨rfl, rfl, rfl, rfl, rfl, rfl, rfl, fun n => ⟨fun hn => ⟨?_, ?_, ?_⟩, fun hn => ?_⟩⟩
  · exact assembleLine_eq_some (decide_eq_true hn) (congrArg (fun x => [x]) (issue_shiftBw hn))
  · exact assembleLine_eq_some (decide_eq_true hn) (congrArg (fun x => [x]) (issue_shiftTb hn))
  · exact assembleLine_eq_some (decide_eq_true hn) (congrArg (fun x => [x]) (issue_tblrdOf hn))
  · have hcheck : decide (n ≤ 255) = false := decide_eq_false (Nat.not_le_of_lt hn)
    exact ⟨assembleLine_eq_none hcheck, assembleLine_eq_none hcheck, assembleLine_eq_none hcheck⟩

/-- Settles O57: each pseudo-instruction checks the values it writes, then writes them, issues its command and waits. -/
theorem pseudoInstructionsExpandInOrder : Obligations.PseudoInstructionsExpandInOrder := by
  intro e d v addr len n
  refine ⟨fun hv => ?_, fun hn => ?_, fun hn => ?_, fun hv => ?_⟩
  · have hfits {x : Nat} (hx : x < 2 ^ 64) : fitsHostWord x = true := decide_eq_true hx
    refine ⟨assembleLine_eq_some (hfits hv) ?_, assembleLine_eq_some (hfits hv) rfl,
      fun ha hl => assembleLine_eq_some ?_ ?_, fun hn => assembleLine_eq_some ?_ ?_⟩
    · cases e <;> cases d <;> rfl
    · simp [AsmLine.wellFormed, hfits hv, hfits ha, hfits hl]
    · cases e <;> rfl
    · simp [AsmLine.wellFormed, hfits hv, hn]
    · cases e with
      | bw => exact congrArg (fun x => [wrOf .val v, x, HostAction.wait]) (issue_shiftBw hn)
      | tb => exact congrArg (fun x => [wrOf .val v, x, HostAction.wait]) (issue_shiftTb hn)
  · exact assembleLine_eq_some (decide_eq_true hn) (congrArg (fun x => [x, HostAction.wait]) (issue_tblrdOf hn))
  · have hcheck : decide (n ≤ 255) = false := decide_eq_false (Nat.not_le_of_lt hn)
    exact ⟨assembleLine_eq_none (by simp [AsmLine.wellFormed, hcheck]), assembleLine_eq_none hcheck⟩
  · have hfits : fitsHostWord v = false := decide_eq_false (Nat.not_lt_of_le hv)
    exact ⟨assembleLine_eq_none hfits, assembleLine_eq_none hfits,
      assembleLine_eq_none (by simp [AsmLine.wellFormed, hfits]),
      assembleLine_eq_none (by simp [AsmLine.wellFormed, hfits])⟩

end Sys2Proof.Machine

/-! SUPPORT. What a completing command writes, as a value (`70_reset_and_hazards.md` R192): the frame of the eight
commands, their error codes (`60_exceptions.md` R170), and that only `crc.*` reads data memory (`20_memory.md`). -/

namespace Sys2Proof.Machine

variable {s t : State}

/-! ## The value of a completion -/

/-- What a completion leaves in the fields it may write, the latch apart, which it empties. -/
structure Completion (W : Nat) where
  result : BitVec W
  err : ErrCode
  bw : EngineCfg W
  tb : EngineCfg W
  table : Table W
  draws : Nat

/-- The state after a completion that leaves `k`. -/
def State.finish (s : State) (k : Completion s.params.W) : State :=
  { s with
    result := k.result, err := k.err, bw := k.bw, tb := k.tb, table := k.table, pend := none, draws := k.draws }

/-- ERR alone is written. -/
def State.endsWith (s : State) (e : ErrCode) : Completion s.params.W :=
  { result := s.result, err := e, bw := s.bw, tb := s.tb, table := s.table, draws := s.draws }

/-- RESULT is written, without error. -/
def State.endsWithResult (s : State) (v : BitVec s.params.W) : Completion s.params.W :=
  { s.endsWith .none with result := v }

/-- The completion of a shift on configuration `c`. -/
def State.shiftCompletion (s : State) (p : Pending s.params.W) (c : EngineCfg s.params.W) (n : Nat) :
    Completion s.params.W :=
  if c.valid then s.endsWithResult (dirShift c.dir p.val n) else s.endsWith .nocfg

/-- The completion of a `crc.*` on configuration `c`, which computes `f`. -/
def State.crcCompletion (s : State) (p : Pending s.params.W) (c : EngineCfg s.params.W)
    (f : BitVec s.params.W → List Byte → BitVec s.params.W) : Completion s.params.W :=
  if !c.valid then s.endsWith .nocfg
  else if !rangeLegal s.params.memBytes p.addr p.len then s.endsWith .range
  else { s.endsWithResult (f p.val (s.dataBytes p)) with draws := s.draws + p.len.toNat }

/-- The completion of the command `i` on the latch `p`. -/
def State.completion (s : State) (p : Pending s.params.W) : Instr → Completion s.params.W
  | .cfgBw d => { s.endsWith .none with bw := derive d p.val }
  | .cfgTb d => { s.endsWith .none with tb := derive d p.val, table := buildTable (derive d p.val) }
  | .crcBw => s.crcCompletion p s.bw (bwCompute s.bw)
  | .crcTb => s.crcCompletion p s.tb (tbCompute s.tb s.table)
  | .rev => s.endsWithResult (bitReverse p.val)
  | .shiftBw n => s.shiftCompletion p s.bw n
  | .shiftTb n => s.shiftCompletion p s.tb n
  | .tblrd k => if s.tb.valid then s.endsWithResult s.table[k] else s.endsWith .nocfg

theorem runShift_eq_finish {p : Pending s.params.W} (hp : s.pend = some p) (c : EngineCfg s.params.W) (n : Nat) :
    s.runShift c n = .next (s.finish (s.shiftCompletion p c n)) := by
  rw [State.runShift_eq hp, State.shiftCompletion]
  split <;> rfl

theorem runCrc_eq_finish {p : Pending s.params.W} (hp : s.pend = some p) (c : EngineCfg s.params.W)
    (f : BitVec s.params.W → List Byte → BitVec s.params.W) :
    s.runCrc c f = .next (s.finish (s.crcCompletion p c f)) := by
  rw [State.runCrc_eq hp, State.crcCompletion]
  split
  · rfl
  split <;> rfl

/-- The meaning of every command is its completion. -/
theorem exec_eq_finish {p : Pending s.params.W} (hp : s.pend = some p) (i : Instr) :
    exec i s = .next (s.finish (s.completion p i)) := by
  cases i with
  | cfgBw d => exact exec_cfgBw hp d
  | cfgTb d => exact exec_cfgTb hp d
  | crcBw => exact runCrc_eq_finish hp s.bw _
  | crcTb => exact runCrc_eq_finish hp s.tb _
  | rev => exact exec_rev hp
  | shiftBw n => exact runShift_eq_finish hp s.bw n
  | shiftTb n => exact runShift_eq_finish hp s.tb n
  | tblrd k =>
    rw [State.completion]
    split
    next hv => exact exec_tblrd_of_valid hp hv k
    next hv => exact exec_tblrd_of_not_valid hp (Bool.eq_false_iff.2 hv) k

/-- What the executor's turn leads to: nothing with no command in flight, else the completion of the command, or of an
illegal word. -/
theorem executorTurn_finish (h : s.executorTurn = .next t) :
    (s.pend = none ∧ t = s) ∨
      (∃ p i, s.pend = some p ∧ decode p.word = .instr i ∧ t = s.finish (s.completion p i)) ∨
      (∃ p why, s.pend = some p ∧ decode p.word = .illegal why ∧ t = s.finish (s.endsWith .illegal)) := by
  obtain ⟨hp, he⟩ | ⟨p, i, hp, hd, he⟩ | ⟨p, why, hp, hd, he⟩ := executorTurn_cases s
  · cases he.symm.trans h
    exact .inl ⟨hp, rfl⟩
  · rw [exec_eq_finish hp] at he
    cases he.symm.trans h
    exact .inr (.inl ⟨p, i, hp, hd, rfl⟩)
  · rw [State.raiseError_eq] at he
    cases he.symm.trans h
    exact .inr (.inr ⟨p, why, hp, hd, rfl⟩)

/-! ## What each command leaves unchanged -/

section Frame

variable (p : Pending s.params.W) (c : EngineCfg s.params.W) (f : BitVec s.params.W → List Byte → BitVec s.params.W)
  (n : Nat) (i : Instr)

/-- The completion leaves both configurations and the table, and with an error RESULT too. -/
structure State.KeepsEngines (s : State) (k : Completion s.params.W) : Prop where
  bw : k.bw = s.bw
  tb : k.tb = s.tb
  table : k.table = s.table
  result : k.err ≠ .none → k.result = s.result

theorem keepsEngines_endsWith (e : ErrCode) : s.KeepsEngines (s.endsWith e) := ⟨rfl, rfl, rfl, fun _ => rfl⟩

theorem keepsEngines_endsWithResult (v : BitVec s.params.W) : s.KeepsEngines (s.endsWithResult v) :=
  ⟨rfl, rfl, rfl, fun h => absurd rfl h⟩

theorem keepsEngines_shiftCompletion : s.KeepsEngines (s.shiftCompletion p c n) := by
  rw [State.shiftCompletion]
  split
  · exact keepsEngines_endsWithResult _
  · exact keepsEngines_endsWith _

theorem keepsEngines_crcCompletion : s.KeepsEngines (s.crcCompletion p c f) := by
  rw [State.crcCompletion]
  split
  · exact keepsEngines_endsWith _
  split
  · exact keepsEngines_endsWith _
  · exact ⟨rfl, rfl, rfl, fun h => absurd rfl h⟩

/-- The configure commands alone write an engine (R27). -/
theorem keepsEngines_completion (h : ∀ d, i ≠ .cfgBw d ∧ i ≠ .cfgTb d) : s.KeepsEngines (s.completion p i) := by
  cases i with
  | cfgBw d => exact absurd rfl (h d).1
  | cfgTb d => exact absurd rfl (h d).2
  | crcBw => exact keepsEngines_crcCompletion p s.bw _
  | crcTb => exact keepsEngines_crcCompletion p s.tb _
  | rev => exact keepsEngines_endsWithResult _
  | shiftBw n => exact keepsEngines_shiftCompletion p s.bw n
  | shiftTb n => exact keepsEngines_shiftCompletion p s.tb n
  | tblrd k =>
    rw [State.completion]
    split
    · exact keepsEngines_endsWithResult _
    · exact keepsEngines_endsWith _

/-- A command is one of the two that configure an engine, or leaves both. -/
theorem completion_cases :
    (∃ d, i = .cfgBw d) ∨ (∃ d, i = .cfgTb d) ∨ s.KeepsEngines (s.completion p i) := by
  by_cases hbw : ∃ d, i = .cfgBw d
  · exact .inl hbw
  by_cases htb : ∃ d, i = .cfgTb d
  · exact .inr (.inl htb)
  · exact .inr (.inr (keepsEngines_completion p i fun d => ⟨fun h => hbw ⟨d, h⟩, fun h => htb ⟨d, h⟩⟩))

theorem completion_bw (h : ∀ d, i ≠ .cfgBw d) : (s.completion p i).bw = s.bw := by
  obtain ⟨d, rfl⟩ | ⟨d, rfl⟩ | hk := completion_cases p i
  · exact absurd rfl (h d)
  · rfl
  · exact hk.bw

theorem completion_tb (h : ∀ d, i ≠ .cfgTb d) :
    (s.completion p i).tb = s.tb ∧ (s.completion p i).table = s.table := by
  obtain ⟨d, rfl⟩ | ⟨d, rfl⟩ | hk := completion_cases p i
  · exact ⟨rfl, rfl⟩
  · exact absurd rfl (h d)
  · exact ⟨hk.tb, hk.table⟩

/-- R28: RESULT is written by a command other than `cfg.*` that ends without error. -/
theorem completion_result (h : (∃ d, i = .cfgBw d ∨ i = .cfgTb d) ∨ (s.completion p i).err ≠ .none) :
    (s.completion p i).result = s.result := by
  obtain ⟨d, rfl | rfl⟩ | he := h
  · rfl
  · rfl
  obtain ⟨d, rfl⟩ | ⟨d, rfl⟩ | hk := completion_cases p i
  · rfl
  · rfl
  · exact hk.result he

theorem shiftCompletion_draws : (s.shiftCompletion p c n).draws = s.draws := by
  rw [State.shiftCompletion]
  split <;> rfl

theorem completion_draws (hbw : i ≠ .crcBw) (htb : i ≠ .crcTb) : (s.completion p i).draws = s.draws := by
  cases i with
  | crcBw => exact absurd rfl hbw
  | crcTb => exact absurd rfl htb
  | shiftBw n => exact shiftCompletion_draws p s.bw n
  | shiftTb n => exact shiftCompletion_draws p s.tb n
  | cfgBw d | cfgTb d | rev => rfl
  | tblrd k =>
    rw [State.completion]
    split <;> rfl

end Frame

/-- Settles O32: a command that completes leaves its completion, and with none in flight the state itself. -/
theorem commandsWriteOnlyWhatTheyMay : Obligations.CommandsWriteOnlyWhatTheyMay := by
  intro i s t h
  cases hp : s.pend with
  | none =>
    cases (exec_of_idle i hp).symm.trans h
    exact ⟨s.result, s.err, s.bw, s.tb, s.table, s.pend, s.draws, rfl, fun _ => rfl, fun _ => ⟨rfl, rfl⟩, fun _ => rfl,
      fun _ _ => rfl⟩
  | some p =>
    cases (exec_eq_finish hp i).symm.trans h
    refine ⟨_, _, _, _, _, _, _, rfl, completion_bw p i, completion_tb p i, fun hi => completion_result p i ?_,
      completion_draws p i⟩
    exact hi.imp_right And.right

/-! ## The error code of each completion (R170) -/

section Err

variable (p : Pending s.params.W) (c : EngineCfg s.params.W) (f : BitVec s.params.W → List Byte → BitVec s.params.W)
  (n : Nat) (i : Instr)

theorem shiftCompletion_err : (s.shiftCompletion p c n).err = if c.valid then .none else .nocfg := by
  rw [State.shiftCompletion]
  split <;> rfl

/-- The range of a `crc.*` that ends past data memory (R52). -/
def Pending.pastEnd {W : Nat} (p : Pending W) (memBytes : Nat) : Prop :=
  p.len ≠ 0 ∧ memBytes < p.addr.toNat + p.len.toNat

theorem rangeLegal_eq_false_iff {W : Nat} (p : Pending W) (memBytes : Nat) :
    rangeLegal memBytes p.addr p.len = false ↔ p.pastEnd memBytes := by
  rw [← Bool.not_eq_true, rangeLegal_eq_true, not_or, Nat.not_le, Pending.pastEnd]

/-- The three ways a `crc.*` ends. -/
theorem crcCompletion_err_cases :
    (c.valid = false ∧ (s.crcCompletion p c f).err = .nocfg) ∨
      (c.valid = true ∧ p.pastEnd s.params.memBytes ∧ (s.crcCompletion p c f).err = .range) ∨
      (c.valid = true ∧ ¬ p.pastEnd s.params.memBytes ∧ (s.crcCompletion p c f).err = .none) := by
  rw [← rangeLegal_eq_false_iff, State.crcCompletion]
  cases c.valid <;> cases rangeLegal s.params.memBytes p.addr p.len <;> simp [State.endsWith, State.endsWithResult]

/-- The engine a command needs was never constructed. -/
def State.lacksEngine (s : State) (i : Instr) : Prop :=
  (s.bw.valid = false ∧ (i = .crcBw ∨ ∃ n, i = .shiftBw n)) ∨
    (s.tb.valid = false ∧ (i = .crcTb ∨ (∃ n, i = .shiftTb n) ∨ ∃ k, i = .tblrd k))

/-- A command that reads data memory, and has the engine for it. -/
def State.readsMemory (s : State) (i : Instr) : Prop :=
  (i = .crcBw ∧ s.bw.valid = true) ∨ (i = .crcTb ∧ s.tb.valid = true)

theorem completion_err_iff :
    (s.completion p i).err ≠ .illegal ∧ ((s.completion p i).err = .nocfg ↔ s.lacksEngine i) ∧
      ((s.completion p i).err = .range ↔ s.readsMemory i ∧ p.pastEnd s.params.memBytes) := by
  cases i with
  | cfgBw d | cfgTb d | rev =>
    simp [State.completion, State.lacksEngine, State.readsMemory, State.endsWith, State.endsWithResult]
  | shiftBw n =>
    cases hv : s.bw.valid <;>
      simp [State.completion, State.lacksEngine, State.readsMemory, shiftCompletion_err, hv]
  | shiftTb n =>
    cases hv : s.tb.valid <;>
      simp [State.completion, State.lacksEngine, State.readsMemory, shiftCompletion_err, hv]
  | tblrd k =>
    cases hv : s.tb.valid <;>
      simp [State.completion, State.lacksEngine, State.readsMemory, State.endsWith, State.endsWithResult, hv]
  | crcBw =>
    obtain ⟨hv, he⟩ | ⟨hv, hr, he⟩ | ⟨hv, hr, he⟩ := crcCompletion_err_cases p s.bw (bwCompute s.bw) <;>
      simp [State.completion, State.lacksEngine, State.readsMemory, *]
  | crcTb =>
    obtain ⟨hv, he⟩ | ⟨hv, hr, he⟩ | ⟨hv, hr, he⟩ := crcCompletion_err_cases p s.tb (tbCompute s.tb s.table) <;>
      simp [State.completion, State.lacksEngine, State.readsMemory, *]

end Err

/-- Settles O35: a word that decodes ends with the code of its completion, any other with ILLEGAL. -/
theorem errCodeOfEachCompletion : Obligations.ErrCodeOfEachCompletion := by
  intro s t p hp h
  obtain ⟨hidle, -⟩ | ⟨q, i, hq, hd, rfl⟩ | ⟨q, why, hq, hd, rfl⟩ := executorTurn_finish h
  · cases hp.symm.trans hidle
  · cases hp.symm.trans hq
    obtain ⟨hill, hnocfg, hrange⟩ := completion_err_iff p i
    refine ⟨iff_of_false hill (by simp [hd]), fun j hj => ?_⟩
    cases hd.symm.trans hj
    exact ⟨hnocfg, hrange⟩
  · cases hp.symm.trans hq
    exact ⟨iff_of_true rfl ⟨why, hd⟩, fun j hj => by cases hd.symm.trans hj⟩

/-! ## Only `crc.*` reads data memory, and only its range (R50 to R52) -/

theorem lt_memBytes_of_rangeLegal {memBytes k : Nat} {addr len : BitVec 64} (h : rangeLegal memBytes addr len = true)
    (hk : k < len.toNat) : addr.toNat + k < memBytes := by
  obtain rfl | h := rangeLegal_eq_true.1 h
  · exact absurd hk (Nat.not_lt_zero k)
  · omega

section OtherMemory

variable {p : Pending s.params.W} {m : Memory}

theorem dataBytes_congr
    (h : ∀ k < p.len.toNat, Memory.read m (p.addr.toNat + k) = Memory.read s.mem (p.addr.toNat + k)) :
    State.dataBytes { s with mem := m } p = s.dataBytes p := by
  refine List.map_congr_left fun k hk => ?_
  simp only [State.memRead, State.heldValues, h k (List.mem_range.1 hk)]

theorem crcCompletion_congr (c : EngineCfg s.params.W) (f : BitVec s.params.W → List Byte → BitVec s.params.W)
    (h : ∀ k < p.len.toNat, p.addr.toNat + k < s.params.memBytes →
      Memory.read m (p.addr.toNat + k) = Memory.read s.mem (p.addr.toNat + k)) :
    State.crcCompletion { s with mem := m } p c f = s.crcCompletion p c f := by
  by_cases hr : rangeLegal s.params.memBytes p.addr p.len = true
  · have hbytes := dataBytes_congr fun k hk => h k hk (lt_memBytes_of_rangeLegal hr hk)
    simp only [State.crcCompletion, hbytes]
    rfl
  · simp only [State.crcCompletion, hr]
    rfl

theorem completion_congr (i : Instr)
    (h : i = .crcBw ∨ i = .crcTb → ∀ k < p.len.toNat, p.addr.toNat + k < s.params.memBytes →
      Memory.read m (p.addr.toNat + k) = Memory.read s.mem (p.addr.toNat + k)) :
    State.completion { s with mem := m } p i = s.completion p i := by
  cases i with
  | crcBw => exact crcCompletion_congr s.bw _ (h (.inl rfl))
  | crcTb => exact crcCompletion_congr s.tb _ (h (.inr rfl))
  | cfgBw d | cfgTb d | rev | shiftBw n | shiftTb n | tblrd k => rfl

end OtherMemory

/-- Settles O38: the completion is the same value over both memories. -/
theorem everyReadIsInsideMemory : Obligations.EveryReadIsInsideMemory := by
  refine ⟨fun _ _ _ _ => lt_memBytes_of_rangeLegal, fun s t p i m hp ht h => ?_⟩
  cases (exec_eq_finish hp i).symm.trans ht
  rw [exec_eq_finish (s := { s with mem := m }) hp, completion_congr i h]
  rfl

/-! ## A buffer the host has kept (R59, R197) -/

theorem dataBytes_of_kept {p : Pending s.params.W} (h : ∀ c ∈ p.held, ¬ p.covers c.1) :
    s.dataBytes p = s.storedBytes p.addr.toNat p.len.toNat := by
  refine List.map_congr_left fun k hk => ?_
  have hheld : ∀ c ∈ p.held, c.1 ≠ p.addr.toNat + k := fun c hc hck =>
    h c hc ⟨hck ▸ Nat.le_add_right .., hck ▸ Nat.add_lt_add_left (List.mem_range.1 hk) _⟩
  rw [State.memRead, State.heldValues_of_not_held hheld]

/-- Settles O40: a byte of the range that was not written in flight has one value to read. -/
theorem crcOverAKeptBufferReadsTheStoredBytes : Obligations.CrcOverAKeptBufferReadsTheStoredBytes := by
  rintro s p hp hkept hr _ rfl
  have hbytes : s.dataBytes p = _ := dataBytes_of_kept (hkept p hp)
  refine ⟨fun hv => ?_, fun hv => ?_⟩
  · exact (runCrc_of_legal hp hv hr).trans (by rw [hbytes]; rfl)
  · exact (runCrc_of_legal hp hv hr).trans (by rw [hbytes]; rfl)

end Sys2Proof.Machine

/-! SUPPORT. All that one step can lead to (`70_reset_and_hazards.md` R193), and the whole-machine rules that follow:
what stops the machine, when a command in flight ends, and which step may write OVR, ERR, RESULT and the
configurations. -/

namespace Sys2Proof.Machine

variable {s t : State}

/-! ## The host's turn -/

/-- The host's next entry writes `v` to `r`, and `rest` is its program after it. A write back writes the value read
last. -/
def State.writesNext (s : State) (r : Reg) (v : HostWord) (rest : List HostAction) : Prop :=
  s.program = .write r v :: rest ∨ (s.program = .writeBack r :: rest ∧ v = lastSeen s.notes)

/-- The host's turn leads from `s` to a state. -/
inductive State.HostMoves (s : State) : State → Prop
  | idle (h : s.program = []) : s.HostMoves s
  | write (r : Reg) (v : HostWord) (rest : List HostAction) (h : s.writesNext r v rest) :
      s.HostMoves ((s.setProgram rest).hostWrite r v)
  | read (r : Reg) (rest : List HostAction) (h : rest ⊆ s.program) : s.HostMoves ((s.setProgram rest).hostRead r)
  | store (a : Nat) (b : Byte) (rest : List HostAction) (h : s.program = .memWrite a b :: rest)
      (ha : a < s.params.memBytes) :
      s.HostMoves (((s.setProgram rest).recordHeld a).setMem (Memory.write s.mem a b))

/-- The host's next entry writes data memory where there is none. -/
def State.writesOutside (s : State) (a : Nat) : Prop :=
  ∃ b rest, s.program = .memWrite a b :: rest ∧ s.params.memBytes ≤ a

/-- The host's turn leads on, but for a memory write outside data memory. -/
theorem hostTurn_cases (s : State) :
    (∃ t, s.hostTurn = .next t ∧ s.HostMoves t) ∨
      ∃ a, s.writesOutside a ∧ s.hostTurn = .fault (.noSuchAddress a) := by
  cases hpr : s.program with
  | nil => exact .inl ⟨s, hostTurn_nil hpr, .idle hpr⟩
  | cons x rest =>
    rw [hostTurn_cons hpr]
    cases x with
    | write r v => exact .inl ⟨_, rfl, .write r v rest (.inl hpr)⟩
    | writeBack r => exact .inl ⟨_, rfl, .write r _ rest (.inr ⟨hpr, rfl⟩)⟩
    | read r => exact .inl ⟨_, rfl, .read r rest (hpr ▸ List.subset_cons_self _ _)⟩
    | wait =>
      cases hb : s.busy with
      | true => exact .inl ⟨_, if_pos hb, .read .status (.wait :: rest) (hpr ▸ List.Subset.refl _)⟩
      | false =>
        exact .inl ⟨_, if_neg (Bool.eq_false_iff.1 hb), .read .status rest (hpr ▸ List.subset_cons_self _ _)⟩
    | memWrite a b =>
      by_cases ha : a < s.params.memBytes
      · exact .inl ⟨_, State.hostMemWrite_of_lt (s := s.setProgram rest) ha b, .store a b rest hpr ha⟩
      · have ha := Nat.le_of_not_lt ha
        exact .inr ⟨a, ⟨b, rest, hpr, ha⟩, State.hostMemWrite_of_ge (s := s.setProgram rest) ha b⟩

theorem hostMoves_of_hostTurn (h : s.hostTurn = .next t) : s.HostMoves t := by
  obtain ⟨u, hu, hm⟩ | ⟨a, -, hf⟩ := hostTurn_cases s
  · cases hu.symm.trans h
    exact hm
  · cases hf.symm.trans h

/-! ## Register writes -/

theorem regWrite_notes (s : State) (r : Reg) (v : HostWord) : (s.regWrite r v).notes = s.notes := by
  obtain ⟨x, a, l, o, p, he, -⟩ := regWrite_frame s r v
  rw [he]

theorem hostWrite_eq (s : State) (r : Reg) (v : HostWord) :
    s.hostWrite r v = { s.regWrite r v with notes := .wrote r v :: s.notes } := by
  rw [State.hostWrite, State.addNote, regWrite_notes]

theorem regWrite_program (s : State) (r : Reg) (v : HostWord) : (s.regWrite r v).program = s.program := by
  obtain ⟨x, a, l, o, p, he, -⟩ := regWrite_frame s r v
  rw [he]

/-- R29: what a register write does to OVR. -/
theorem regWrite_ovr (s : State) (r : Reg) (v : HostWord) :
    (s.regWrite r v).ovr = s.ovr ∨ (r = .status ∧ v.getLsbD 8 = true ∧ (s.regWrite r v).ovr = false) ∨
      (r = .cmd ∧ s.busy = true ∧ (s.regWrite r v).ovr = true) := by
  cases r with
  | cmd =>
    cases hp : s.pend with
    | none => exact .inl (by rw [regWrite_cmd_of_idle hp, State.accept_ovr])
    | some p => exact .inr (.inr ⟨rfl, State.busy_eq_true.2 ⟨p, hp⟩, by rw [regWrite_cmd_of_busy hp]⟩)
  | status =>
    cases hv : v.getLsbD 8 with
    | true => exact .inr (.inl ⟨rfl, rfl, by rw [regWrite_status_of_bit hv]⟩)
    | false => exact .inl (by rw [regWrite_status_of_not_bit hv])
  | val | addr | len | result | param | rsv7 | bwCfg | bwPoly | bwMask | rsv11 | tbCfg | tbPoly | tbMask | rsv15 =>
    exact .inl rfl

theorem recordHeld_program (s : State) (a : Nat) : (s.recordHeld a).program = s.program := by
  unfold State.recordHeld
  split <;> rfl

theorem recordHeld_ovr (s : State) (a : Nat) : (s.recordHeld a).ovr = s.ovr := by
  unfold State.recordHeld
  split <;> rfl

/-! ## The step -/

theorem step_of_mover {a : Turn} (h : s.mover = a) : step s = (s.setTurns s.turns.tail).takeTurn a :=
  h ▸ step_eq_takeTurn s

/-- The step of an empty schedule is a turn from the state as it is. -/
theorem step_of_nil (h : s.turns = []) : step s = s.takeTurn s.defaultTurn := by
  rw [step, h]

theorem mover_of_nil_busy (h : s.turns = []) (hb : s.busy = true) : s.mover = .executor := by
  simp [State.mover, State.defaultTurn, h, hb]

theorem mover_of_cons {a : Turn} {rest : List Turn} (h : s.turns = a :: rest) : s.mover = a := by
  simp [State.mover, h]

/-- Reset is asserted by the schedule alone. -/
theorem mover_eq_reset_iff : s.mover = .reset ↔ s.turns.head? = some .reset := by
  cases h : s.turns with
  | nil => cases hb : s.busy <;> simp [State.mover, State.defaultTurn, h, hb]
  | cons a rest => simp [State.mover, h]

/-- A step that goes on is the host's turn, the executor's, or reset. -/
theorem step_cases (h : step s = .next t) :
    (s.mover = .host ∧ (s.setTurns s.turns.tail).hostTurn = .next t) ∨
      (s.mover = .executor ∧ (s.setTurns s.turns.tail).executorTurn = .next t) ∨
      (s.turns.head? = some .reset ∧ t = (s.setTurns s.turns.tail).resetBlock) := by
  cases hm : s.mover with
  | host => exact .inl ⟨rfl, (step_of_mover hm).symm.trans h⟩
  | executor => exact .inr (.inl ⟨rfl, (step_of_mover hm).symm.trans h⟩)
  | reset =>
    cases (step_of_mover hm).symm.trans h
    exact .inr (.inr ⟨mover_eq_reset_iff.1 hm, rfl⟩)

theorem step_next_or_fault (s : State) :
    (∃ t, step s = .next t) ∨ ∃ a, s.writesOutside a ∧ step s = .fault (.noSuchAddress a) := by
  cases hm : s.mover with
  | host =>
    obtain ⟨t, ht, -⟩ | ⟨a, ha, hf⟩ := hostTurn_cases (s.setTurns s.turns.tail)
    · exact .inl ⟨t, (step_of_mover hm).trans ht⟩
    · exact .inr ⟨a, ha, (step_of_mover hm).trans hf⟩
  | executor =>
    obtain ⟨t, ht, -⟩ := executorTurn_completesTo (s.setTurns s.turns.tail)
    exact .inl ⟨t, (step_of_mover hm).trans ht⟩
  | reset => exact .inl ⟨_, step_of_mover hm⟩

/-- Settles O11: of the three turns only the host's can stop, at a memory write outside data memory. -/
theorem onlyAMemoryWriteOutsideMemoryStops : Obligations.OnlyAMemoryWriteOutsideMemoryStops := by
  intro s
  obtain h | ⟨a, ⟨b, rest, hpr, ha⟩, hf⟩ := step_next_or_fault s
  · exact .inl h
  · exact .inr ⟨a, b, rest, hpr, ha, hf⟩

/-- Settles O7: with a command in flight the executor moves when it is named, or when nobody is. -/
theorem stepRunsTheDecodedCommand : Obligations.StepRunsTheDecodedCommand := by
  intro s p i hp hd
  refine ⟨fun rest h => ?_, fun h => ?_⟩
  · rw [step_of_mover (mover_of_cons h), h]
    exact executorTurn_instr (s := s.setTurns rest) hp hd
  · rw [step_of_nil h, State.defaultTurn, State.busy_eq_true.2 ⟨p, hp⟩]
    exact executorTurn_instr hp hd

/-- Settles O8: the placed word is in the latch, and the executor's turn comes first. -/
theorem stepRunsTheWordPlacedForIt : Obligations.StepRunsTheWordPlacedForIt := by
  intro s nbits w i h
  have hd : decode (tableWord nbits w) = .instr i := by
    rw [decodeTableWord] at h
    split at h
    next j hj => rw [hj, Option.some.inj h]
    next => cases h
  exact executorTurn_instr (s := s.accept (tableWord nbits w)) (s.accept_pend _) hd

/-- Settles O9: the host moves when it is named, or when nobody is and no command is in flight. -/
theorem stepDoesTheHostsNextTransaction : Obligations.StepDoesTheHostsNextTransaction := by
  intro s rest
  have hnamed : s.turns = .host :: rest → step s = (s.setTurns rest).hostTurn := step_of_host
  have hdefault : s.turns = [] → s.pend = none → step s = s.hostTurn := fun h hp => by
    rw [step_of_nil h, State.defaultTurn, State.busy_eq_false.2 hp]
    rfl
  have hwrite (r : Reg) (v : HostWord) := congrArg (Host.Outcome.next (φ := Fault) (ρ := Refusal)) (hostWrite_eq s r v)
  refine ⟨fun h x xs hpr => (hnamed h).trans (hostTurn_cons hpr),
    fun h hp x xs hpr => (hdefault h hp).trans (hostTurn_cons hpr), fun r v => ⟨hwrite r v, ?_⟩,
    fun h hpr => (hnamed h).trans (hostTurn_nil hpr), fun h hp => ?_,
    fun h hp hpr => (hdefault h hp).trans (hostTurn_nil hpr)⟩
  · rintro rfl
    exact hwrite r _
  · rw [step_of_mover (mover_of_cons h), h]
    exact executorTurn_none (s := s.setTurns rest) hp

/-! ## Runs that do not stop -/

theorem hostMoves_program (h : s.HostMoves t) : t.program ⊆ s.program := by
  cases h with
  | idle h => exact List.Subset.refl _
  | read r rest h => exact h
  | write r v rest h =>
    have hrest : rest ⊆ s.program := by
      obtain h | ⟨h, -⟩ := h <;> exact h ▸ List.subset_cons_self _ _
    rw [State.hostWrite, State.addNote_program, regWrite_program]
    exact hrest
  | store a b rest h ha =>
    rw [State.setMem_program, recordHeld_program, h]
    exact List.subset_cons_self _ _

theorem step_program (h : step s = .next t) : t.program ⊆ s.program := by
  obtain ⟨-, ht⟩ | ⟨-, ht⟩ | ⟨-, rfl⟩ := step_cases h
  · exact hostMoves_program (s := s.setTurns s.turns.tail) (hostMoves_of_hostTurn ht)
  · obtain ⟨x, e, b, c, T, p, d, rfl⟩ := completesTo_of_next (executorTurn_completesTo _) ht
    exact List.Subset.refl _
  · exact List.Subset.refl _

/-- The host writes data memory only where there is some (R193). -/
def State.writesInside (s : State) : Prop := programInMemory s.params.memBytes s.program

theorem writesInside_of_step (hs : s.writesInside) (h : step s = .next t) : t.writesInside := by
  intro a b hab
  rw [step_params h]
  exact hs a b (step_program h hab)

theorem exists_step_of_writesInside (hs : s.writesInside) : ∃ t, step s = .next t := by
  obtain h | ⟨a, ⟨b, rest, hpr, ha⟩, -⟩ := step_next_or_fault s
  · exact h
  · have hin : a < s.params.memBytes := hs a b (hpr ▸ List.mem_cons_self)
    exact absurd ha (Nat.not_le_of_lt hin)

/-- Settles O12: a program inside memory goes on with its step, and is inside memory after it. -/
theorem programInsideMemoryNeverStops : Obligations.ProgramInsideMemoryNeverStops := by
  intro s n hs
  change s.writesInside at hs
  induction n generalizing s with
  | zero => exact ⟨s, rfl⟩
  | succ n ih =>
    obtain ⟨u, hu⟩ := exists_step_of_writesInside hs
    obtain ⟨t, ht⟩ := ih u (writesInside_of_step hs hu)
    exact ⟨t, (run_succ_of_step hu).trans ht⟩

/-! ## The end of a command in flight (`00_scope.md` R8) -/

/-- A run's last step. -/
theorem run_succ_of_run {k : Nat} {u : State} (h : Host.Core.run core k s = .next u) (hu : step u = .next t) :
    Host.Core.run core (k + 1) s = .next t := by
  induction k generalizing s with
  | zero =>
    obtain rfl := run_zero_iff.1 h
    exact (run_succ_of_step hu).trans rfl
  | succ k ih =>
    obtain ⟨v, hv, hrun⟩ := step_of_run_succ h
    exact (run_succ_of_step hv).trans (ih hrun)

/-- With a command in flight the host's turn keeps the command. -/
theorem hostTurn_keeps_command {p : Pending s.params.W} (hp : s.pend = some p) (h : s.hostTurn = .next t) :
    t.turns = s.turns ∧ ∃ q, t.pend = some q ∧ p.SameCommand q := by
  obtain ⟨x, a, l, o, pr, no, rfl⟩ | ⟨a, c, pr, rfl⟩ := hostTurn_cases_of_busy hp h
  · exact ⟨rfl, p, hp, .refl p⟩
  · exact ⟨rfl, _, rfl, ⟨rfl, rfl, rfl, rfl⟩⟩

/-- Before the schedule is used up somebody other than the host moves, and until then the command stays in the latch. -/
theorem exists_run_to_mover {p : Pending s.params.W} (hs : s.writesInside) (hp : s.pend = some p) :
    ∃ j u, ∃ q : Pending u.params.W, j ≤ s.turns.length ∧ Host.Core.run core j s = .next u ∧ u.pend = some q ∧
      p.SameCommand q ∧ u.mover ≠ .host ∧ u.turns ⊆ s.turns := by
  induction hl : s.turns generalizing s with
  | nil =>
    refine ⟨0, s, p, Nat.zero_le _, rfl, hp, .refl p, ?_, hl ▸ List.Subset.refl _⟩
    rw [mover_of_nil_busy hl (State.busy_eq_true.2 ⟨p, hp⟩)]
    decide
  | cons a rest ih =>
    by_cases ha : a = .host
    · subst ha
      obtain ⟨u, hu⟩ := exists_step_of_writesInside hs
      obtain ⟨hturns, q, hq, hsame⟩ :=
        hostTurn_keeps_command (s := s.setTurns rest) hp ((step_of_host hl).symm.trans hu)
      obtain ⟨j, v, r, hj, hrun, hr, hsame', hmover, hsub⟩ := ih (writesInside_of_step hs hu) hq hturns
      exact ⟨j + 1, v, r, Nat.succ_le_succ hj, (run_succ_of_step hu).trans hrun, hr, hsame.trans hsame', hmover,
        List.Subset.trans hsub (List.subset_cons_self _ _)⟩
    · refine ⟨0, s, p, Nat.zero_le _, rfl, hp, .refl p, ?_, hl ▸ List.Subset.refl _⟩
      rwa [mover_of_cons hl]

theorem executorTurn_busy (h : s.executorTurn = .next t) : t.busy = false := by
  obtain ⟨hp, rfl⟩ | ⟨p, i, -, -, rfl⟩ | ⟨p, why, -, -, rfl⟩ := executorTurn_finish h
  · exact State.busy_eq_false.2 hp
  · rfl
  · rfl

/-- The executor's turn and reset leave no command in flight. -/
theorem exists_step_of_mover_ne_host (h : s.mover ≠ .host) : ∃ t, step s = .next t ∧ t.busy = false := by
  cases hm : s.mover with
  | host => exact absurd hm h
  | executor =>
    obtain ⟨t, ht, -⟩ := executorTurn_completesTo (s.setTurns s.turns.tail)
    exact ⟨t, (step_of_mover hm).trans ht, executorTurn_busy ht⟩
  | reset => exact ⟨_, step_of_mover hm, rfl⟩

/-- Settles O13: the first turn that is not the host's ends the command, and with no reset to come it is the
executor's. -/
theorem everyAcceptedCommandCompletes : Obligations.EveryAcceptedCommandCompletes := by
  intro s p hs hp
  obtain ⟨j, u, q, hj, hrun, hq, ⟨hword, haddr, hlen, hval⟩, hmover, hsub⟩ := exists_run_to_mover hs hp
  obtain ⟨t, ht, hidle⟩ := exists_step_of_mover_ne_host hmover
  refine ⟨fun hreset => ?_, j + 1, t, Nat.succ_le_succ hj, run_succ_of_run hrun ht, hidle⟩
  have hexec : u.mover = .executor := by
    cases hm : u.mover with
    | host => exact absurd hm hmover
    | executor => rfl
    | reset => exact absurd (hsub (List.mem_of_mem_head? (mover_eq_reset_iff.1 hm))) hreset
  exact ⟨j, u, t, q, hj, hrun, hq, hword, hval, haddr, hlen, step_of_mover hexec, ht, hidle⟩

/-- Settles O14: the program has ended and no command is in flight, so neither agent can use its turn. -/
theorem endedRunStaysAsItIs : Obligations.EndedRunStaysAsItIs := by
  intro s h hreset
  have hend : (s.program = [] ∧ s.pend = none) ∧ polledSinceCmd s.notes = true := by
    simpa [State.runEnded, State.busy] using h
  obtain ⟨⟨hpr, hp⟩, -⟩ := hend
  cases hm : s.mover with
  | host => exact (step_of_mover hm).trans (hostTurn_nil (s := s.setTurns _) hpr)
  | executor => exact (step_of_mover hm).trans (executorTurn_none (s := s.setTurns _) hp)
  | reset => exact absurd (List.mem_of_mem_head? (mover_eq_reset_iff.1 hm)) hreset

/-! ## Which step may write what -/

theorem hostMoves_ovr (h : s.HostMoves t) :
    t.ovr = s.ovr ∨ (t.ovr = false ∧ ∃ v rest, s.writesNext .status v rest ∧ v.getLsbD 8 = true) ∨
      (t.ovr = true ∧ s.busy = true ∧ ∃ v rest, s.writesNext .cmd v rest) := by
  cases h with
  | idle h => exact .inl rfl
  | read r rest h => exact .inl rfl
  | store a b rest h ha => exact .inl (recordHeld_ovr (s.setProgram rest) a)
  | write r v rest h =>
    obtain he | ⟨rfl, hv, he⟩ | ⟨rfl, hb, he⟩ := regWrite_ovr (s.setProgram rest) r v
    · exact .inl he
    · exact .inr (.inl ⟨he, v, rest, h, hv⟩)
    · exact .inr (.inr ⟨he, hb, v, rest, h⟩)

theorem State.CompletesTo.ovr_eq (h : s.CompletesTo t) : t.ovr = s.ovr := by
  obtain ⟨x, e, b, c, T, p, d, rfl⟩ := h
  rfl

/-- Settles O20: a completion leaves OVR, and of the host's transactions two register writes reach it. -/
theorem overrunIsStickyUntilClearedOrReset : Obligations.OverrunIsStickyUntilClearedOrReset := by
  intro s t h
  have notBoth : t.ovr = false → ¬ t.ovr = true := Bool.eq_false_iff.1
  have kept (he : t.ovr = s.ovr) : ¬ (s.ovr = true ∧ t.ovr = false) ∧ ¬ (s.ovr = false ∧ t.ovr = true) := by
    rw [he]
    cases s.ovr <;> decide
  obtain ⟨-, ht⟩ | ⟨-, ht⟩ | ⟨hr, rfl⟩ := step_cases h
  · obtain he | ⟨he, v, rest, hw, hv⟩ | ⟨he, hb, v, rest, hw⟩ := hostMoves_ovr (hostMoves_of_hostTurn ht)
    · obtain ⟨hclear, hset⟩ := kept he
      exact ⟨fun h1 h0 => absurd ⟨h1, h0⟩ hclear, fun h0 h1 => absurd ⟨h0, h1⟩ hset⟩
    · exact ⟨fun _ _ => .inr ⟨v, rest, hw, hv⟩, fun _ h1 => absurd h1 (notBoth he)⟩
    · exact ⟨fun _ h0 => absurd he (notBoth h0), fun _ _ => ⟨hb, v, rest, hw⟩⟩
  · obtain ⟨hclear, hset⟩ := kept (completesTo_of_next (executorTurn_completesTo _) ht).ovr_eq
    exact ⟨fun h1 h0 => absurd ⟨h1, h0⟩ hclear, fun h0 h1 => absurd ⟨h0, h1⟩ hset⟩
  · exact ⟨fun _ _ => .inl hr, nofun⟩

/-- Settles O21: the host leaves ERR, and an executor's turn that writes it ends a command. -/
theorem errIsWrittenOnlyAtCompletionOrReset : Obligations.ErrIsWrittenOnlyAtCompletionOrReset := by
  intro s t h he
  obtain ⟨-, ht⟩ | ⟨-, ht⟩ | ⟨hr, rfl⟩ := step_cases h
  · obtain ⟨x, a, l, o, p, m, pr, no, rfl, -⟩ := hostTurn_frame ht
    exact absurd rfl he
  · cases hp : s.pend with
    | none =>
      cases (executorTurn_none (s := s.setTurns s.turns.tail) hp).symm.trans ht
      exact absurd rfl he
    | some p => exact .inl ⟨State.busy_eq_true.2 ⟨p, hp⟩, executorTurn_busy ht⟩
  · exact .inr hr

/-- Settles O22: the host leaves RESULT, and so do an illegal word, a `cfg.*` and a completion with an error. -/
theorem resultIsWrittenOnlyAtCompletionOrReset : Obligations.ResultIsWrittenOnlyAtCompletionOrReset := by
  intro s t h hne
  obtain ⟨-, ht⟩ | ⟨-, ht⟩ | ⟨hr, rfl⟩ := step_cases h
  · obtain ⟨x, a, l, o, p, m, pr, no, rfl, -⟩ := hostTurn_frame ht
    exact absurd rfl hne
  · obtain ⟨-, rfl⟩ | ⟨p, i, hp, hd, rfl⟩ | ⟨p, why, -, -, rfl⟩ := executorTurn_finish ht
    · exact absurd rfl hne
    · have hwritten : ¬ ((∃ d, i = .cfgBw d ∨ i = .cfgTb d) ∨ ((s.setTurns _).completion p i).err ≠ .none) :=
        fun hkept => hne (congrArg BitVec.toNat (completion_result p i hkept))
      obtain ⟨hcfg, herr⟩ := not_or.1 hwritten
      exact .inl ⟨p, i, hp, hd, fun d => ⟨fun e => hcfg ⟨d, .inl e⟩, fun e => hcfg ⟨d, .inr e⟩⟩, rfl, not_not.1 herr⟩
    · exact absurd rfl hne
  · exact .inr hr

/-- Settles O53: the host leaves both engines, and a completion writes one if it is that of its configure command. -/
theorem configurationIsWrittenOnlyByConfigureAndReset : Obligations.ConfigurationIsWrittenOnlyByConfigureAndReset := by
  intro s t h hnr
  obtain ⟨-, ht⟩ | ⟨-, ht⟩ | ⟨hr, -⟩ := step_cases h
  · obtain ⟨x, a, l, o, p, m, pr, no, rfl, -⟩ := hostTurn_frame ht
    exact ⟨fun _ => .rfl, fun _ => ⟨.rfl, .rfl⟩⟩
  · obtain ⟨-, rfl⟩ | ⟨p, i, hp, hd, rfl⟩ | ⟨p, why, -, -, rfl⟩ := executorTurn_finish ht
    · exact ⟨fun _ => .rfl, fun _ => ⟨.rfl, .rfl⟩⟩
    · refine ⟨fun hc => heq_of_eq (completion_bw p i fun d hi => ?_), fun hc => ?_⟩
      · obtain hb | hc := hc
        · cases hb
        · exact hc p d hp (hi ▸ hd)
      · have hi : ∀ d, i ≠ .cfgTb d := fun d hi => by
          obtain hb | hc := hc
          · cases hb
          · exact hc p d hp (hi ▸ hd)
        obtain ⟨htb, htable⟩ := completion_tb (s := s.setTurns _) p i hi
        exact ⟨heq_of_eq htb, heq_of_eq htable⟩
    · exact ⟨fun _ => .rfl, fun _ => ⟨.rfl, .rfl⟩⟩
  · exact absurd hr hnr

/-- What STATUS does not show reads as before when no field a read returns has changed. -/
theorem regRead_of_hostTurn (h : s.hostTurn = .next t) {r : Reg} (hr : r ≠ .status)
    (hw : r ∈ [Reg.val, .addr, .len] → ¬ s.hostWrites r) : t.regRead r = s.regRead r := by
  obtain ⟨x, a, l, o, p, m, pr, no, rfl, hval, haddr, hlen, -⟩ := hostTurn_frame h
  cases r with
  | val => exact congrArg (BitVec.setWidth 64) (hval (hw (by simp)))
  | addr => exact haddr (hw (by simp))
  | len => exact hlen (hw (by simp))
  | status => exact absurd rfl hr
  | cmd | result | param | rsv7 | bwCfg | bwPoly | bwMask | rsv11 | tbCfg | tbPoly | tbMask | rsv15 => rfl

/-- R29: bit 0 of STATUS is BUSY. -/
theorem regRead_status_bit_zero (s : State) : (s.regRead .status).getLsbD 0 = s.busy := by
  rw [State.regRead, State.statusWord, BitVec.getLsbD_append]
  simp

/-- Settles O19: reads note a value, acceptance fills the latch alone, and while a command stays in flight only the host
has moved. -/
theorem readsHaveNoEffectAndSeeTheStateBeforeTheCommand :
    Obligations.ReadsHaveNoEffectAndSeeTheStateBeforeTheCommand := by
  refine ⟨fun s r => rfl, fun s v r hp hr => ?_, fun s v hp => ?_, fun s t r h _ hb hr hw => ?_⟩
  · rw [regWrite_cmd_of_idle hp]
    cases r with
    | status => exact absurd rfl hr
    | _ => rfl
  · rw [regWrite_cmd_of_idle hp]
    exact regRead_status_bit_zero _
  · obtain ⟨-, ht⟩ | ⟨-, ht⟩ | ⟨-, rfl⟩ := step_cases h
    · refine regRead_of_hostTurn ht hr fun hmem hwrites => ?_
      obtain ⟨hback, hown⟩ := hw hmem
      obtain hback' | ⟨v, hown'⟩ := hwrites
      · exact hback hback'
      · exact hown v hown'
    · rw [executorTurn_busy ht] at hb
      cases hb
    · cases hb

end Sys2Proof.Machine

/-! SUPPORT. The well-formed states: reset is one, and every step keeps them (`10_state.md` R30, R38,
`43_table_engine.md` R140). -/

namespace Sys2Proof.Machine

variable {s t : State}

/-! ## What each part of a step keeps -/

/-- R30: what `Derive` gives is derived. -/
theorem derived_derive {W : Nat} (d : Dir) (P : BitVec W) : (derive d P).Derived := .inr ⟨P, by rw [derive_dir]⟩

/-- Of the registers, the host's fields and the latch, a well-formed state restricts what the latch remembers alone. -/
theorem State.Wf.withLatch (h : s.Wf) {v : BitVec s.params.W} {a l : BitVec 64} {o : Bool}
    {p : Option (Pending s.params.W)} {pr : List HostAction} {tu : List Turn} {no : List Note}
    (hp : ∀ q, p = some q → cellsBelow s.params.memBytes q.held) :
    State.Wf { s with
      val := v, addr := a, len := l, ovr := o, pend := p, program := pr, turns := tu, notes := no } :=
  ⟨h.size, h.canonical, h.inMemory, h.bwDerived, h.tbDerived, h.tableBuilt, hp⟩

theorem cellsBelow_nil (n : Nat) : cellsBelow n [] := nofun

theorem State.Wf.setTurns (h : s.Wf) (l : List Turn) : (s.setTurns l).Wf := h.withLatch h.heldInMemory

theorem State.Wf.setProgram (h : s.Wf) (l : List HostAction) : (s.setProgram l).Wf := h.withLatch h.heldInMemory

theorem State.Wf.addNote (h : s.Wf) (n : Note) : (s.addNote n).Wf := h.withLatch h.heldInMemory

theorem State.Wf.regWrite (h : s.Wf) (r : Reg) (v : HostWord) : (s.regWrite r v).Wf := by
  cases r with
  | cmd =>
    cases hp : s.pend with
    | none =>
      rw [regWrite_cmd_of_idle hp]
      refine h.withLatch fun q hq => ?_
      cases hq
      exact cellsBelow_nil _
    | some p =>
      rw [regWrite_cmd_of_busy hp]
      exact h.withLatch h.heldInMemory
  | status =>
    cases hv : v.getLsbD 8 with
    | true =>
      rw [regWrite_status_of_bit hv]
      exact h.withLatch h.heldInMemory
    | false => rwa [regWrite_status_of_not_bit hv]
  | val | addr | len => exact h.withLatch h.heldInMemory
  | result | param | rsv7 | bwCfg | bwPoly | bwMask | rsv11 | tbCfg | tbPoly | tbMask | rsv15 => exact h

/-- R38: a byte of data memory is written, and the latch remembers one of data memory. -/
theorem State.Wf.store (h : s.Wf) {a : Nat} (ha : a < s.params.memBytes) (b : Byte) :
    ((s.recordHeld a).setMem (Memory.write s.mem a b)).Wf := by
  have hcanonical := Memory.wf_write a b h.canonical
  have hin : cellsBelow s.params.memBytes (Memory.write s.mem a b) := fun c hc => by
    obtain rfl | hc := Memory.mem_write hc
    · exact ha
    · exact h.inMemory c hc
  cases hp : s.pend with
  | none =>
    rw [State.recordHeld_none hp]
    exact ⟨h.size, hcanonical, hin, h.bwDerived, h.tbDerived, h.tableBuilt, h.heldInMemory⟩
  | some p =>
    rw [State.recordHeld_some hp]
    refine ⟨h.size, hcanonical, hin, h.bwDerived, h.tbDerived, h.tableBuilt, fun q hq => ?_⟩
    cases hq
    intro c hc
    obtain rfl | hc := List.mem_insert_iff.1 hc
    · exact ha
    · exact h.heldInMemory p hp c hc

theorem State.Wf.hostMoves (h : s.Wf) (ht : s.HostMoves t) : t.Wf := by
  cases ht with
  | idle _ => exact h
  | write r v rest _ => exact ((h.setProgram rest).regWrite r v).addNote _
  | read r rest _ => exact (h.setProgram rest).addNote _
  | store a b rest _ ha => exact (h.setProgram rest).store (a := a) ha b

/-- A completion leaves a well-formed state when the engines it leaves are. -/
theorem State.Wf.finish (h : s.Wf) {k : Completion s.params.W} (hbw : k.bw.Derived) (htb : k.tb.Derived)
    (htable : k.tb.valid = true → k.table = buildTable k.tb) : (s.finish k).Wf :=
  ⟨h.size, h.canonical, h.inMemory, hbw, htb, htable, nofun⟩

theorem State.Wf.finish_of_keepsEngines (h : s.Wf) {k : Completion s.params.W} (hk : s.KeepsEngines k) :
    (s.finish k).Wf := by
  refine h.finish (hk.bw ▸ h.bwDerived) (hk.tb ▸ h.tbDerived) ?_
  rw [hk.tb, hk.table]
  exact h.tableBuilt

theorem State.Wf.executorTurn (h : s.Wf) (ht : s.executorTurn = .next t) : t.Wf := by
  obtain ⟨-, rfl⟩ | ⟨p, i, -, -, rfl⟩ | ⟨p, why, -, -, rfl⟩ := executorTurn_finish ht
  · exact h
  · obtain ⟨d, rfl⟩ | ⟨d, rfl⟩ | hk := completion_cases p i
    · exact h.finish (derived_derive d p.val) h.tbDerived h.tableBuilt
    · exact h.finish h.bwDerived (derived_derive d p.val) fun _ => rfl
    · exact h.finish_of_keepsEngines hk
  · exact h.finish_of_keepsEngines (keepsEngines_endsWith .illegal)

/-- R30: an engine that was never constructed is derived, and asks nothing of the table. -/
theorem derived_unconfigured (W : Nat) : (EngineCfg.unconfigured W).Derived := .inl rfl

theorem State.Wf.resetBlock (h : s.Wf) : s.resetBlock.Wf :=
  ⟨h.size, h.canonical, h.inMemory, derived_unconfigured _, derived_unconfigured _, nofun, nofun⟩

/-- Settles O51: each of the three turns keeps the well-formed states. -/
theorem stepKeepsWellFormed : Obligations.StepKeepsWellFormed := by
  intro s t h hstep
  have hnow : (s.setTurns s.turns.tail).Wf := h.setTurns _
  obtain ⟨-, ht⟩ | ⟨-, ht⟩ | ⟨-, rfl⟩ := step_cases hstep
  · exact hnow.hostMoves (hostMoves_of_hostTurn ht)
  · exact hnow.executorTurn ht
  · exact hnow.resetBlock

theorem resetOf_wf {p : Params} (h : p.legal) : (State.resetOf p).Wf :=
  ⟨h, rfl, cellsBelow_nil _, derived_unconfigured _, derived_unconfigured _, nofun, nofun⟩

/-- Settles O50: reset leaves the engines unconstructed and nothing in the latch. -/
theorem resetIsWellFormed : Obligations.ResetIsWellFormed :=
  ⟨fun _ => resetOf_wf, resetOf_wf (p := Config.resetParams) (Nat.le_refl _)⟩

end Sys2Proof.Machine

/-! SUPPORT. While the table engine is unconstructed nothing depends on its table (`10_state.md` R35): states that
differ only there move alike. -/

namespace Sys2Proof.Machine

variable {s s' t : State}

/-- The states differ in the table at most, and there only while the table engine is unconstructed. -/
def State.AlikeButTable (s s' : State) : Prop :=
  ∃ T : Table s.params.W, s' = s.setTable T ∧ (s.tb.valid = true → T = s.table)

/-- The outcomes are states alike, or one and the same fault. -/
inductive OutcomesAlike : Result → Result → Prop
  | next {t t' : State} (h : t.AlikeButTable t') : OutcomesAlike (.next t) (.next t')
  | fault (f : Fault) : OutcomesAlike (.fault f) (.fault f)

namespace State.AlikeButTable

theorem setTurns (h : s.AlikeButTable s') (l : List Turn) : (s.setTurns l).AlikeButTable (s'.setTurns l) := by
  obtain ⟨T, rfl, hT⟩ := h
  exact ⟨T, rfl, hT⟩

theorem setProgram (h : s.AlikeButTable s') (l : List HostAction) :
    (s.setProgram l).AlikeButTable (s'.setProgram l) := by
  obtain ⟨T, rfl, hT⟩ := h
  exact ⟨T, rfl, hT⟩

theorem addNote (h : s.AlikeButTable s') (n : Note) : (s.addNote n).AlikeButTable (s'.addNote n) := by
  obtain ⟨T, rfl, hT⟩ := h
  exact ⟨T, rfl, hT⟩

theorem regWrite (h : s.AlikeButTable s') (r : Reg) (v : HostWord) :
    (s.regWrite r v).AlikeButTable (s'.regWrite r v) := by
  obtain ⟨T, rfl, hT⟩ := h
  cases r with
  | cmd =>
    cases hp : s.pend with
    | none =>
      rw [regWrite_cmd_of_idle hp, regWrite_cmd_of_idle (s := s.setTable T) hp]
      exact ⟨T, rfl, hT⟩
    | some p =>
      rw [regWrite_cmd_of_busy hp, regWrite_cmd_of_busy (s := s.setTable T) hp]
      exact ⟨T, rfl, hT⟩
  | status =>
    cases hv : v.getLsbD 8 with
    | true =>
      rw [regWrite_status_of_bit hv, regWrite_status_of_bit hv]
      exact ⟨T, rfl, hT⟩
    | false =>
      rw [regWrite_status_of_not_bit hv, regWrite_status_of_not_bit hv]
      exact ⟨T, rfl, hT⟩
  | val | addr | len | result | param | rsv7 | bwCfg | bwPoly | bwMask | rsv11 | tbCfg | tbPoly | tbMask | rsv15 =>
    exact ⟨T, rfl, hT⟩

theorem hostWrite (h : s.AlikeButTable s') (r : Reg) (v : HostWord) :
    (s.hostWrite r v).AlikeButTable (s'.hostWrite r v) :=
  (h.regWrite r v).addNote _

/-- No register shows the table (R24). -/
theorem hostRead (h : s.AlikeButTable s') (r : Reg) : (s.hostRead r).AlikeButTable (s'.hostRead r) := by
  obtain ⟨T, rfl, hT⟩ := h
  exact ⟨T, rfl, hT⟩

theorem hostMemWrite (h : s.AlikeButTable s') (a : Nat) (b : Byte) :
    OutcomesAlike (s.hostMemWrite a b) (s'.hostMemWrite a b) := by
  obtain ⟨T, rfl, hT⟩ := h
  by_cases ha : a < s.params.memBytes
  · cases hp : s.pend with
    | none =>
      rw [State.hostMemWrite_none hp ha, State.hostMemWrite_none (s := s.setTable T) hp ha]
      exact .next ⟨T, rfl, hT⟩
    | some p =>
      rw [State.hostMemWrite_some hp ha, State.hostMemWrite_some (s := s.setTable T) hp ha]
      exact .next ⟨T, rfl, hT⟩
  · have ha := Nat.le_of_not_lt ha
    rw [State.hostMemWrite_of_ge ha, State.hostMemWrite_of_ge (s := s.setTable T) ha]
    exact .fault _

theorem busy_eq (h : s.AlikeButTable s') : s'.busy = s.busy := by
  obtain ⟨T, rfl, -⟩ := h
  rfl

theorem program_eq (h : s.AlikeButTable s') : s'.program = s.program := by
  obtain ⟨T, rfl, -⟩ := h
  rfl

theorem turns_eq (h : s.AlikeButTable s') : s'.turns = s.turns := by
  obtain ⟨T, rfl, -⟩ := h
  rfl

theorem notes_eq (h : s.AlikeButTable s') : s'.notes = s.notes := by
  obtain ⟨T, rfl, -⟩ := h
  rfl

theorem mover_eq (h : s.AlikeButTable s') : s'.mover = s.mover := by
  obtain ⟨T, rfl, -⟩ := h
  rfl

theorem hostDo (h : s.AlikeButTable s') (x : HostAction) : OutcomesAlike (s.hostDo x) (s'.hostDo x) := by
  cases x with
  | write r v => exact .next (h.hostWrite r v)
  | read r => exact .next (h.hostRead r)
  | memWrite a b => exact h.hostMemWrite a b
  | wait =>
    rw [State.hostDo, State.hostDo, h.busy_eq, h.program_eq]
    split
    · exact .next ((h.hostRead .status).setProgram _)
    · exact .next (h.hostRead .status)
  | writeBack r =>
    rw [State.hostDo, State.hostDo, h.notes_eq]
    exact .next (h.hostWrite r _)

theorem hostTurn (h : s.AlikeButTable s') : OutcomesAlike s.hostTurn s'.hostTurn := by
  rw [State.hostTurn, State.hostTurn, h.program_eq]
  cases s.program with
  | nil => exact .next h
  | cons x rest => exact (h.setProgram rest).hostDo x

end State.AlikeButTable

/-! ## Completions -/

/-- The same completion with another table. -/
def Completion.withTable {W : Nat} (k : Completion W) (T : Table W) : Completion W := { k with table := T }

theorem crcCompletion_setTable (T : Table s.params.W) (p : Pending s.params.W) (c : EngineCfg s.params.W)
    (f : BitVec s.params.W → List Byte → BitVec s.params.W) :
    (s.setTable T).crcCompletion p c f = (s.crcCompletion p c f).withTable T := by
  simp only [State.crcCompletion, apply_ite (Completion.withTable · T)]
  rfl

theorem shiftCompletion_setTable (T : Table s.params.W) (p : Pending s.params.W) (c : EngineCfg s.params.W) (n : Nat) :
    (s.setTable T).shiftCompletion p c n = (s.shiftCompletion p c n).withTable T := by
  simp only [State.shiftCompletion, apply_ite (Completion.withTable · T)]
  rfl

/-- An unconstructed table engine computes and shows nothing. -/
theorem completion_of_tb_not_valid (hv : s.tb.valid = false) (p : Pending s.params.W) {i : Instr}
    (hi : i = .crcTb ∨ ∃ k, i = .tblrd k) : s.completion p i = s.endsWith .nocfg := by
  obtain rfl | ⟨k, rfl⟩ := hi
  · rw [State.completion, State.crcCompletion, hv]
    rfl
  · rw [State.completion, hv]
    rfl

/-- With the table engine unconstructed a command leaves the table as it is, or builds a new one whatever it was. -/
theorem completion_setTable (hv : s.tb.valid = false) (T : Table s.params.W) (p : Pending s.params.W) (i : Instr) :
    ∃ T', (s.setTable T).completion p i = (s.completion p i).withTable T' ∧
      ((s.completion p i).tb.valid = true → T' = (s.completion p i).table) := by
  have keeps : (∀ d, i ≠ .cfgTb d) → (s.completion p i).tb.valid = true → T = (s.completion p i).table := fun hi h => by
    rw [(completion_tb p i hi).1, hv] at h
    cases h
  have nocfg (hi : i = .crcTb ∨ ∃ k, i = .tblrd k) :
      (s.setTable T).completion p i = (s.completion p i).withTable T :=
    (completion_of_tb_not_valid (s := s.setTable T) hv p hi).trans
      (congrArg (Completion.withTable · T) (completion_of_tb_not_valid hv p hi)).symm
  cases i with
  | cfgTb d => exact ⟨_, rfl, fun _ => rfl⟩
  | cfgBw d | rev => exact ⟨T, rfl, keeps nofun⟩
  | shiftBw n => exact ⟨T, shiftCompletion_setTable T p s.bw n, keeps nofun⟩
  | shiftTb n => exact ⟨T, shiftCompletion_setTable T p s.tb n, keeps nofun⟩
  | crcBw => exact ⟨T, crcCompletion_setTable T p s.bw _, keeps nofun⟩
  | crcTb => exact ⟨T, nocfg (.inl rfl), keeps nofun⟩
  | tblrd k => exact ⟨T, nocfg (.inr ⟨k, rfl⟩), keeps nofun⟩

/-- R35: states alike complete a command alike. -/
theorem State.AlikeButTable.exec (h : s.AlikeButTable s') {p : Pending s.params.W} (hp : s.pend = some p) (i : Instr) :
    OutcomesAlike (Machine.exec i s) (Machine.exec i s') := by
  obtain ⟨T, rfl, hT⟩ := h
  rw [exec_eq_finish hp, exec_eq_finish (s := s.setTable T) hp]
  cases hv : s.tb.valid with
  | false =>
    obtain ⟨T', hk, hT'⟩ := completion_setTable hv T p i
    rw [hk]
    exact .next ⟨T', rfl, hT'⟩
  | true =>
    obtain rfl := hT hv
    exact .next ⟨_, rfl, fun _ => rfl⟩

theorem State.AlikeButTable.executorTurn (h : s.AlikeButTable s') : OutcomesAlike s.executorTurn s'.executorTurn := by
  obtain ⟨hp, he⟩ | ⟨p, i, hp, hd, he⟩ | ⟨p, why, hp, hd, he⟩ := executorTurn_cases s <;> rw [he]
  · have hnone : s'.pend = none := by
      obtain ⟨T, rfl, -⟩ := h
      exact hp
    rw [executorTurn_none hnone]
    exact .next h
  · have hexec := h.exec hp i
    obtain ⟨T, rfl, -⟩ := h
    rwa [executorTurn_instr (s := s.setTable T) hp hd]
  · obtain ⟨T, rfl, hT⟩ := h
    rw [executorTurn_illegal (s := s.setTable T) hp hd]
    exact .next ⟨T, rfl, hT⟩

theorem State.AlikeButTable.step (h : s.AlikeButTable s') : OutcomesAlike (Machine.step s) (Machine.step s') := by
  rw [step_eq_takeTurn, step_eq_takeTurn, h.mover_eq, h.turns_eq]
  have hnow := h.setTurns s.turns.tail
  cases s.mover with
  | host => exact hnow.hostTurn
  | executor => exact hnow.executorTurn
  | reset =>
    obtain ⟨T, rfl, -⟩ := h
    exact .next ⟨_, rfl, fun _ => rfl⟩

/-- Settles O54: states that differ in the table of an unconstructed engine are alike, and a step keeps them so. -/
theorem tableOfAnUnconstructedEngineCannotBeObserved : Obligations.TableOfAnUnconstructedEngineCannotBeObserved := by
  intro s T hv
  have halike : s.AlikeButTable { s with table := T } := ⟨T, rfl, fun h => by rw [hv] at h; cases h⟩
  refine ⟨fun t ht => ?_, fun f hf => ?_⟩
  · have hstep := halike.step
    rw [ht] at hstep
    generalize Machine.step { s with table := T } = r at hstep
    cases hstep with
    | next h =>
      obtain ⟨T', rfl, hT'⟩ := h
      exact ⟨T', rfl, hT'⟩
  · have hstep := halike.step
    rw [hf] at hstep
    generalize Machine.step { s with table := T } = r at hstep
    cases hstep
    rfl

end Sys2Proof.Machine

/-! SUPPORT. What the host sees: the register map and what each register reads (`10_state.md` R20, R24, R29 to R33), its
memory write (`70_reset_and_hazards.md` R193), and `wait` and `chain` (`30_encoding.md` R79). -/

namespace Sys2Proof.Machine

variable {s : State}

/-! ## Registers -/

/-- Settles O15: the list of the registers is in the order of their numbers. -/
theorem registerNumbersAreThoseOfTheMap : Obligations.RegisterNumbersAreThoseOfTheMap := by
  refine ⟨fun r => ?_, by decide, rfl, rfl, rfl, rfl, rfl, rfl, rfl, rfl, rfl, rfl, rfl, rfl, rfl, rfl, rfl, rfl⟩
  cases r <;> rfl

/-- R20: a register of W bits is zero-extended. -/
theorem toNat_setWidth_hostWord {w : Width} (x : BitVec w.bits) : (x.setWidth 64).toNat = x.toNat :=
  BitVec.toNat_setWidth_of_le w.le_sixtyFour

theorem toNat_dirBit (d : Dir) : (dirBit d).toNat = if d = .lsbFirst then 1 else 0 := by cases d <;> rfl

/-- R31, as a number. -/
theorem toNat_cfgWord {W : Nat} {c : EngineCfg W} (h : c.pack < 256) :
    c.cfgWord.toNat = (if c.valid then 1 else 0) + 2 * (if c.dir = .lsbFirst then 1 else 0) + 256 * c.pack := by
  have hvalid : (if c.valid then 1 else 0) = c.valid.toNat := by cases c.valid <;> rfl
  simp only [EngineCfg.cfgWord, toNat_append_eq_add, BitVec.toNat_ofNat, BitVec.toNat_ofBool, hvalid, ← toNat_dirBit]
  omega

/-- Settles O17: each register reads its field, and the configuration registers pack three. -/
theorem hostReadOfEachRegister : Obligations.HostReadOfEachRegister := by
  intro s
  refine ⟨toNat_setWidth_hostWord _, rfl, rfl, toNat_setWidth_hostWord _, regRead_param_toNat s,
    toNat_setWidth_hostWord _, toNat_setWidth_hostWord _, toNat_setWidth_hostWord _, toNat_setWidth_hostWord _,
    fun r hr => ?_, fun r c hc hpack => ?_⟩
  · simp only [List.mem_cons, List.not_mem_nil, or_false] at hr
    obtain rfl | rfl | rfl | rfl := hr <;> rfl
  · obtain ⟨rfl, rfl⟩ | ⟨rfl, rfl⟩ := hc <;> exact toNat_cfgWord hpack

/-- R170: the codes as numbers. -/
theorem toNat_errBits (e : ErrCode) :
    e.bits.toNat = match e with | .none => 0 | .illegal => 1 | .nocfg => 2 | .range => 3 := by
  cases e <;> rfl

/-- R29: STATUS as a number. -/
theorem toNat_statusWord (s : State) :
    s.statusWord.toNat = s.busy.toNat + 16 * s.err.bits.toNat + 256 * s.ovr.toNat := by
  simp only [State.statusWord, toNat_append_eq_add, BitVec.toNat_ofNat, BitVec.toNat_ofBool]
  omega

/-- Settles O18: the four parts of STATUS stand side by side. -/
theorem statusHoldsBusyErrOvr : Obligations.StatusHoldsBusyErrOvr := by
  intro s
  refine (toNat_statusWord s).trans ?_
  rw [toNat_errBits]
  cases s.busy <;> cases s.ovr <;> rfl

/-- Settles O24: after reset every field a register shows is 0, but for W. -/
theorem everyRegisterReadsItsResetValue : Obligations.EveryRegisterReadsItsResetValue := by
  intro p r
  have hcfg : (EngineCfg.unconfigured p.W).cfgWord.toNat = 0 := toNat_cfgWord (Nat.zero_lt_succ 255)
  cases r with
  | param => exact regRead_param_toNat (State.resetOf p)
  | val | result | bwPoly | bwMask | tbPoly | tbMask => exact (toNat_setWidth_hostWord _).trans BitVec.toNat_zero
  | status => exact statusHoldsBusyErrOvr (State.resetOf p)
  | bwCfg | tbCfg => exact hcfg
  | cmd | addr | len | rsv7 | rsv11 | rsv15 => rfl

/-! ## The host's memory write -/

/-- Settles O37: the write is to a canonical memory, and of the latch it touches what is remembered. -/
theorem hostMemWriteStoresOneByte : Obligations.HostMemWriteStoresOneByte := by
  intro s a b hwf
  refine ⟨fun ha => ?_, fun ha => State.hostMemWrite_of_ge ha b⟩
  have hread (a' : Nat) :
      Memory.read (Memory.write s.mem a b) a' = if a' = a then b else Memory.read s.mem a' := by
    split
    next h => rw [h, Memory.read_write_same a b hwf]
    next h => exact Memory.read_write_other b hwf h
  cases hp : s.pend with
  | none =>
    refine ⟨_, s.pend, State.hostMemWrite_none hp ha b, Memory.wf_write a b hwf, hread, fun _ => hp, nofun⟩
  | some p =>
    refine ⟨_, _, State.hostMemWrite_some hp ha b, Memory.wf_write a b hwf, hread, nofun, fun q hq => ?_⟩
    cases hq
    exact ⟨_, rfl⟩

/-! ## `wait` and `chain` -/

theorem hostDo_wait (s : State) : s.hostDo .wait = .next { s with
    notes := .saw .status (s.regRead .status) :: s.notes
    program := if s.busy then .wait :: s.program else s.program } := by
  rw [State.hostDo]
  cases s.busy <;> rfl

/-- What was read from a register of W bits is written to one unchanged. -/
theorem setWidth_setWidth_hostWord {w : Width} (x : BitVec w.bits) : (x.setWidth 64).setWidth w.bits = x := by
  rw [BitVec.setWidth_setWidth_of_le x w.le_sixtyFour, BitVec.setWidth_eq]

/-- Settles O56: `wait` depends on BUSY alone, and `chain` writes the value it has just noted. -/
theorem waitPollsAndChainCarriesTheResult : Obligations.WaitPollsAndChainCarriesTheResult :=
  ⟨hostDo_wait, fun s => ⟨rfl, _, rfl, _, rfl, congrArg BitVec.toNat (setWidth_setWidth_hostWord s.result)⟩⟩

end Sys2Proof.Machine
